-- ==== Sys2Proof/Config.lean ====
section
/-! DEFINITION. The configuration of the block: every parameter of 00_scope.md R5 in one record, the table SPECS among them
(92_eei_decisions.md D22). Every width and bit position of the model is read from it. The model has no free value: no rule
of the spec leaves one open. -/

namespace Sys2Proof

/-- The six fields by their mnemonics (00_scope.md R5; 30_encoding.md R63 for the order). -/
inductive FieldIdx
  | extra
  | nframes
  | atype
  | offx
  | offy
  | aspeed
deriving DecidableEq, Repr

/-- The document's BitfieldSpec without its name: the field index stands for the name (10_state.md R32). -/
structure FieldSpec where
  bitSize   : Nat
  signed    : Bool
  bitOffset : Nat
deriving DecidableEq, Repr

/-- A spec table: one row per field, in ascending index. -/
abbrev SpecTable := List FieldSpec

/-- The byte order of the stored word: one, and not switchable (00_scope.md R5; 20_memory.md R41). -/
inductive ByteOrder
  | littleEndian
deriving DecidableEq, Repr

/-- The implementation parameters of 00_scope.md R5. -/
structure Config where
  /-- WORDW, width of the packed word. -/
  wordW            : Nat
  /-- NFIELDS, number of fields. -/
  nFields          : Nat
  /-- SPECS[0], EXTRA. -/
  extra            : FieldSpec
  /-- SPECS[1], NFRAMES. -/
  nframes          : FieldSpec
  /-- SPECS[2], ATYPE. -/
  atype            : FieldSpec
  /-- SPECS[3], OFFX. -/
  offx             : FieldSpec
  /-- SPECS[4], OFFY. -/
  offy             : FieldSpec
  /-- SPECS[5], ASPEED. -/
  aspeed           : FieldSpec
  /-- Least legal bitSize of any spec. -/
  bitSizeMin       : Nat
  /-- Greatest legal bitSize of any spec. -/
  bitSizeMax       : Nat
  /-- Greatest legal bitOffset of any spec. -/
  bitOffsetMax     : Nat
  /-- Greatest legal bitOffset + bitSize of any spec (decision D21). -/
  fieldEndMax      : Nat
  /-- VALW, width of a field value on the command and response ports. -/
  valW             : Nat
  /-- CMDW's op part. -/
  opW              : Nat
  /-- CMDW's sel part. -/
  selW             : Nat
  /-- CMDW, width of a command word. -/
  cmdW             : Nat
  /-- NBYTES, byte lanes of the word. -/
  nBytes           : Nat
  /-- Byte order of the lanes. -/
  byteOrder        : ByteOrder
  /-- Number of AnimationType members, their ordinals 0 up. -/
  animationMembers : Nat
  /-- The ordinal of Invalid. -/
  invalidOrdinal   : Int
deriving DecidableEq, Repr

/-- The row of a field (00_scope.md R5, SPECS[i]). -/
@[reducible] def Config.spec (c : Config) : FieldIdx → FieldSpec
  | .extra   => c.extra
  | .nframes => c.nframes
  | .atype   => c.atype
  | .offx    => c.offx
  | .offy    => c.offy
  | .aspeed  => c.aspeed

/-- The whole table in index order. -/
def Config.specs (c : Config) : SpecTable :=
  [c.extra, c.nframes, c.atype, c.offx, c.offy, c.aspeed]

/-- The one supported configuration, with the document's six rows (00_scope.md R5; 30_encoding.md R56). DESIGN CHOICE,
unsafe, log 7: the model is built from this one record. It is reducible, so that the types that read it are BitVec 32,
BitVec 4 and so on to every tactic. -/
@[reducible] def Config.bfc32 : Config where
  wordW            := 32
  nFields          := 6
  extra            := { bitSize := 4, signed := false, bitOffset := 0 }
  nframes          := { bitSize := 6, signed := false, bitOffset := 4 }
  atype            := { bitSize := 2, signed := false, bitOffset := 10 }
  offx             := { bitSize := 8, signed := true, bitOffset := 12 }
  offy             := { bitSize := 8, signed := true, bitOffset := 20 }
  aspeed           := { bitSize := 4, signed := false, bitOffset := 28 }
  bitSizeMin       := 1
  bitSizeMax       := 32
  bitOffsetMax     := 31
  fieldEndMax      := 32
  valW             := 32
  opW              := 4
  selW             := 4
  cmdW             := 40
  nBytes           := 4
  byteOrder        := .littleEndian
  animationMembers := 4
  invalidOrdinal   := -1

end Sys2Proof
end

