-- ==== Sys2Proof/Word.lean ====
section
/-! DEFINITION. The bit-vector types the spec's words and ports have, their widths read from the configuration
(00_scope.md R5, R10). -/

namespace Sys2Proof

/-- A byte lane, 8 bits (20_memory.md R40). -/
abbrev Byte := BitVec 8

/-- The packed word, a port value, a status register: WORDW and VALW bits, which are one width (00_scope.md R5;
Config.wellFormed checks it). -/
abbrev Word := BitVec Config.bfc32.wordW

/-- A command word of format C40: CMDW bits (00_scope.md R5). -/
abbrev CmdWord := BitVec Config.bfc32.cmdW

end Sys2Proof
end

