-- ==== Sys2Proof/Syntax.lean ====
section
/-! DEFINITION. The commands: one constructor per row of the opcode table (30_encoding.md R62). Ignored bits are not part
of a command (R67), and an illegal word is no command (R66). -/

namespace Sys2Proof

/-- The 29 commands. -/
inductive Instr
  | nop
  | clr
  | ldw (w : Word)
  | stw
  | ldb (k : BitVec 2) (b : Byte)
  | stb (k : BitVec 2)
  | setfExtra (v : Word)
  | setfNframes (v : Word)
  | setfAtype (v : Word)
  | setfOffx (v : Word)
  | setfOffy (v : Word)
  | setfAspeed (v : Word)
  | getfExtra
  | getfNframes
  | getfAtype
  | getfOffx
  | getfOffy
  | getfAspeed
  | getat
  | rdstStatus
  | rdstEval
  | rdstEmin
  | rdstEmax
  | rdspecExtra
  | rdspecNframes
  | rdspecAtype
  | rdspecOffx
  | rdspecOffy
  | rdspecAspeed
deriving DecidableEq, Repr

/-- SETF of a field (42_pack_ops.md R130 to R135). -/
def Instr.setf (i : FieldIdx) (v : Word) : Instr :=
  match i with
  | .extra   => .setfExtra v
  | .nframes => .setfNframes v
  | .atype   => .setfAtype v
  | .offx    => .setfOffx v
  | .offy    => .setfOffy v
  | .aspeed  => .setfAspeed v

/-- GETF of a field (41_unpack_ops.md R112 to R117). -/
def Instr.getf (i : FieldIdx) : Instr :=
  match i with
  | .extra   => .getfExtra
  | .nframes => .getfNframes
  | .atype   => .getfAtype
  | .offx    => .getfOffx
  | .offy    => .getfOffy
  | .aspeed  => .getfAspeed

/-- RDSPEC of a field (43_system_ops.md R156 to R161). -/
def Instr.rdspec (i : FieldIdx) : Instr :=
  match i with
  | .extra   => .rdspecExtra
  | .nframes => .rdspecNframes
  | .atype   => .rdspecAtype
  | .offx    => .rdspecOffx
  | .offy    => .rdspecOffy
  | .aspeed  => .rdspecAspeed

end Sys2Proof
end

