-- ==== Sys2Proof/WellFormed.lean ====
section
/-! DEFINITION. The static checks of the configuration (00_scope.md R6; 60_exceptions.md R173). A command has no check of
its own: its operands' types (a lane of 2 bits, a byte, a word) admit exactly the values its encoding admits. -/

namespace Sys2Proof

/-- One row, by the bounds of the configuration, the supported one unless another is named: bitSize in 1..32, bitOffset in
0..31, bitOffset + bitSize at most 32 (R6; decision D21). -/
def FieldSpec.wellFormed (sp : FieldSpec) (c : Config := Config.bfc32) : Bool :=
  decide (c.bitSizeMin ≤ sp.bitSize) && decide (sp.bitSize ≤ c.bitSizeMax)
    && decide (sp.bitOffset ≤ c.bitOffsetMax) && decide (sp.bitOffset + sp.bitSize ≤ c.fieldEndMax)

/-- Whether a field holds bit k of the word: bitOffset ≤ k < bitOffset + bitSize (R9). -/
def FieldSpec.covers (sp : FieldSpec) (k : Nat) : Bool :=
  decide (sp.bitOffset ≤ k) && decide (k < sp.bitOffset + sp.bitSize)

/-- The rows "partition the 32-bit word exactly, with no gaps or overlaps" (R6). -/
def SpecTable.partitions (t : SpecTable) (c : Config := Config.bfc32) : Bool :=
  (List.range c.wordW).all fun k => (t.filter fun sp => sp.covers k).length == 1

/-- A table the generic codec accepts: every row well formed, and the exact partition (R6). DESIGN CHOICE, unsafe, log 15:
R6 asks the partition of the six-row table only and says nothing of a table of another length; this check asks it of a table
of any length and does not look at the number of rows. The table of a Config has six by its form. -/
def SpecTable.wellFormed (t : SpecTable) (c : Config := Config.bfc32) : Bool :=
  t.all (fun sp => sp.wellFormed c) && t.partitions c

/-- A configuration the block may be built from: any table the check accepts, six rows by the form of Config, and every other
parameter at the one value 00_scope.md R5 gives it (R5, R6; decision D22). -/
def Config.wellFormed (c : Config) : Bool :=
  c.specs.wellFormed c
    && decide (c = { Config.bfc32 with
        extra := c.extra, nframes := c.nframes, atype := c.atype, offx := c.offx, offy := c.offy, aspeed := c.aspeed })

end Sys2Proof
end

