-- ==== Sys2Proof/Decode.lean ====
section
/-! DEFINITION. The command word C40: its three fields, the total decoder, the encoder, and the opcode table as mask and
match rows (30_encoding.md R60 to R68). A command word stands on the command port and not in memory, so it has no byte
order (20_memory.md R41, R51). -/

namespace Sys2Proof

/-- cmd.op, bits 39:36, above data and sel (R60). -/
def cmdOp (c : CmdWord) : BitVec Config.bfc32.opW :=
  c.extractLsb' (Config.bfc32.valW + Config.bfc32.selW) Config.bfc32.opW

/-- cmd.sel, bits 35:32, above data (R60). -/
def cmdSel (c : CmdWord) : BitVec Config.bfc32.selW := c.extractLsb' Config.bfc32.valW Config.bfc32.selW

/-- cmd.data, bits 31:0 (R60). -/
def cmdData (c : CmdWord) : Word := c.extractLsb' 0 Config.bfc32.valW

/-- The 40-bit word `op ++ sel ++ data` (R60). -/
def cmdWord (op sel : BitVec 4) (data : Word) : CmdWord := op ++ sel ++ data

/-- Why a command word is illegal (R66). -/
inductive DecodeError
  /-- op is 0xB to 0xF. -/
  | reservedOp (op : BitVec 4)
  /-- op selects something and sel is out of its range. -/
  | selectorOutOfRange (op sel : BitVec 4)
deriving DecidableEq, Repr

/-- Field selector: 0 to 5 in ascending bitOffset, 6 to 15 nothing (R63). -/
def fieldOfSel (sel : BitVec 4) : Option FieldIdx :=
  match sel.toNat with
  | 0 => some .extra
  | 1 => some .nframes
  | 2 => some .atype
  | 3 => some .offx
  | 4 => some .offy
  | 5 => some .aspeed
  | _ => none

/-- Byte-lane selector: 0 to NBYTES - 1 = 3, 4 to 15 nothing (R64). -/
def laneOfSel (sel : BitVec 4) : Option (BitVec 2) :=
  if sel.toNat < Config.bfc32.nBytes then some (sel.setWidth 2) else none

/-- Status selector: 0 STATUS, 1 EVAL, 2 EMIN, 3 EMAX, 4 to 15 nothing (R65). -/
def rdstOfSel (sel : BitVec 4) : Option Instr :=
  match sel.toNat with
  | 0 => some .rdstStatus
  | 1 => some .rdstEval
  | 2 => some .rdstEmin
  | 3 => some .rdstEmax
  | _ => none

/-- A selected command, or the out-of-range error (R66). -/
def selected (op sel : BitVec 4) : Option Instr → Except DecodeError Instr
  | some i => .ok i
  | none   => .error (.selectorOutOfRange op sel)

/-- The decoder: total on the 2^40 command words, by the command map of R62; ignored bits are not read (R67). -/
def decode (c : CmdWord) : Except DecodeError Instr :=
  let op := cmdOp c
  let sel := cmdSel c
  let data := cmdData c
  match op.toNat with
  | 0  => .ok .nop
  | 1  => .ok .clr
  | 2  => .ok (.ldw data)
  | 3  => .ok .stw
  | 4  => selected op sel ((laneOfSel sel).map fun k => .ldb k (data.setWidth 8))
  | 5  => selected op sel ((laneOfSel sel).map .stb)
  | 6  => selected op sel ((fieldOfSel sel).map fun i => .setf i data)
  | 7  => selected op sel ((fieldOfSel sel).map .getf)
  | 8  => .ok .getat
  | 9  => selected op sel (rdstOfSel sel)
  | 10 => selected op sel ((fieldOfSel sel).map .rdspec)
  | _  => .error (.reservedOp op)

/-- The encoder: the word of a command, ignored fields 0 (R62, R70). -/
def encode : Instr → CmdWord
  | .nop           => cmdWord 0x0#4 0x0#4 0
  | .clr           => cmdWord 0x1#4 0x0#4 0
  | .ldw w         => cmdWord 0x2#4 0x0#4 w
  | .stw           => cmdWord 0x3#4 0x0#4 0
  | .ldb k b       => cmdWord 0x4#4 (k.setWidth 4) (b.setWidth 32)
  | .stb k         => cmdWord 0x5#4 (k.setWidth 4) 0
  | .setfExtra v   => cmdWord 0x6#4 0x0#4 v
  | .setfNframes v => cmdWord 0x6#4 0x1#4 v
  | .setfAtype v   => cmdWord 0x6#4 0x2#4 v
  | .setfOffx v    => cmdWord 0x6#4 0x3#4 v
  | .setfOffy v    => cmdWord 0x6#4 0x4#4 v
  | .setfAspeed v  => cmdWord 0x6#4 0x5#4 v
  | .getfExtra     => cmdWord 0x7#4 0x0#4 0
  | .getfNframes   => cmdWord 0x7#4 0x1#4 0
  | .getfAtype     => cmdWord 0x7#4 0x2#4 0
  | .getfOffx      => cmdWord 0x7#4 0x3#4 0
  | .getfOffy      => cmdWord 0x7#4 0x4#4 0
  | .getfAspeed    => cmdWord 0x7#4 0x5#4 0
  | .getat         => cmdWord 0x8#4 0x0#4 0
  | .rdstStatus    => cmdWord 0x9#4 0x0#4 0
  | .rdstEval      => cmdWord 0x9#4 0x1#4 0
  | .rdstEmin      => cmdWord 0x9#4 0x2#4 0
  | .rdstEmax      => cmdWord 0x9#4 0x3#4 0
  | .rdspecExtra   => cmdWord 0xA#4 0x0#4 0
  | .rdspecNframes => cmdWord 0xA#4 0x1#4 0
  | .rdspecAtype   => cmdWord 0xA#4 0x2#4 0
  | .rdspecOffx    => cmdWord 0xA#4 0x3#4 0
  | .rdspecOffy    => cmdWord 0xA#4 0x4#4 0
  | .rdspecAspeed  => cmdWord 0xA#4 0x5#4 0

/-- An opcode-table row's match and mask (R67): a word c is the row's command when `c AND mask = match`. -/
def opcodeRow : Instr → CmdWord × CmdWord
  | .nop           => (0x0000000000#40, 0xF000000000#40)
  | .clr           => (0x1000000000#40, 0xF000000000#40)
  | .ldw _         => (0x2000000000#40, 0xF000000000#40)
  | .stw           => (0x3000000000#40, 0xF000000000#40)
  | .ldb _ _       => (0x4000000000#40, 0xFC00000000#40)
  | .stb _         => (0x5000000000#40, 0xFC00000000#40)
  | .setfExtra _   => (0x6000000000#40, 0xFF00000000#40)
  | .setfNframes _ => (0x6100000000#40, 0xFF00000000#40)
  | .setfAtype _   => (0x6200000000#40, 0xFF00000000#40)
  | .setfOffx _    => (0x6300000000#40, 0xFF00000000#40)
  | .setfOffy _    => (0x6400000000#40, 0xFF00000000#40)
  | .setfAspeed _  => (0x6500000000#40, 0xFF00000000#40)
  | .getfExtra     => (0x7000000000#40, 0xFF00000000#40)
  | .getfNframes   => (0x7100000000#40, 0xFF00000000#40)
  | .getfAtype     => (0x7200000000#40, 0xFF00000000#40)
  | .getfOffx      => (0x7300000000#40, 0xFF00000000#40)
  | .getfOffy      => (0x7400000000#40, 0xFF00000000#40)
  | .getfAspeed    => (0x7500000000#40, 0xFF00000000#40)
  | .getat         => (0x8000000000#40, 0xF000000000#40)
  | .rdstStatus    => (0x9000000000#40, 0xFF00000000#40)
  | .rdstEval      => (0x9100000000#40, 0xFF00000000#40)
  | .rdstEmin      => (0x9200000000#40, 0xFF00000000#40)
  | .rdstEmax      => (0x9300000000#40, 0xFF00000000#40)
  | .rdspecExtra   => (0xA000000000#40, 0xFF00000000#40)
  | .rdspecNframes => (0xA100000000#40, 0xFF00000000#40)
  | .rdspecAtype   => (0xA200000000#40, 0xFF00000000#40)
  | .rdspecOffx    => (0xA300000000#40, 0xFF00000000#40)
  | .rdspecOffy    => (0xA400000000#40, 0xFF00000000#40)
  | .rdspecAspeed  => (0xA500000000#40, 0xFF00000000#40)

/-- The word of a table row: its bits w, every bit above nbits 0. -/
def tableWord (nbits w : Nat) : CmdWord := BitVec.ofNat Config.bfc32.cmdW (w % 2 ^ nbits)

/-- The command the decoder reads from a table row's word. -/
def decodeTableWord (nbits w : Nat) : Option Instr := (decode (tableWord nbits w)).toOption

end Sys2Proof
end

