-- ==== Sys2Proof/Machine/FieldFunctions.lean ====
section
/-! DEFINITION. The pure datapath functions (40_field_functions.md R75 to R99): constants of a spec, extractor, insert lane,
merge, range check, AnimationType decode, byte-lane maps. Arguments outside the domain of 00_scope.md R6 are a DESIGN
CHOICE, unsafe, log 9: the formulas are total, and claims carry the well-formedness of the spec. -/

namespace Sys2Proof.Machine

/-- SPECS[i] (00_scope.md R5). -/
@[reducible] def fieldSpec (i : FieldIdx) : FieldSpec := Config.bfc32.spec i

/-- `mask = 2^bitSize - 1` (R75). -/
def specMask (sp : FieldSpec) : Nat := 2 ^ sp.bitSize - 1

/-- `signBit = 2^(bitSize-1)` (R76). -/
def specSignBit (sp : FieldSpec) : Nat := 2 ^ (sp.bitSize - 1)

/-- `min = signed ? -2^(bitSize-1) : 0` (R77). -/
def specMin (sp : FieldSpec) : Int := if sp.signed then -(2 ^ (sp.bitSize - 1) : Int) else 0

/-- `max = signed ? 2^(bitSize-1)-1 : mask` (R78). -/
def specMax (sp : FieldSpec) : Int :=
  if sp.signed then (2 ^ (sp.bitSize - 1) : Int) - 1 else (specMask sp : Int)

/-- The mask in place, `mask << bitOffset` (30_encoding.md R56). -/
def maskInPlace (sp : FieldSpec) : Word := BitVec.ofNat Config.bfc32.wordW (specMask sp) <<< sp.bitOffset

/-- `raw = (word >> bitOffset) & mask`, a logical shift (R80; 90_conflicts.md C1). -/
def rawField (w : Word) (sp : FieldSpec) : Nat := (w >>> sp.bitOffset).toNat &&& specMask sp

/-- The extractor, in the document's words (R80). -/
def unpack (w : Word) (sp : FieldSpec) : Int :=
  if sp.signed && (rawField w sp &&& specSignBit sp) != 0 then
    -((specMask sp : Int) - (rawField w sp : Int) + 1)
  else
    (rawField w sp : Int)

/-- ext_EXTRA: the extractor with its row of SPECS (R81). -/
def extExtra (w : Word) : Int := unpack w (fieldSpec .extra)

/-- ext_NFRAMES: the extractor with its row of SPECS (R82). -/
def extNframes (w : Word) : Int := unpack w (fieldSpec .nframes)

/-- ext_ATYPE: the extractor with its row of SPECS (R83). -/
def extAtype (w : Word) : Int := unpack w (fieldSpec .atype)

/-- ext_OFFX, signed: the extractor with its row of SPECS (R84). -/
def extOffx (w : Word) : Int := unpack w (fieldSpec .offx)

/-- ext_OFFY, signed: the extractor with its row of SPECS (R85). -/
def extOffy (w : Word) : Int := unpack w (fieldSpec .offy)

/-- ext_ASPEED: the extractor with its row of SPECS (R86). -/
def extAspeed (w : Word) : Int := unpack w (fieldSpec .aspeed)

/-- The insert lane, `(value & mask) << bitOffset`, where `value & mask` is value mod 2^bitSize with the non-negative
modulus (R87). -/
def lane (v : Int) (sp : FieldSpec) : Word :=
  BitVec.ofNat Config.bfc32.wordW (v % (2 ^ sp.bitSize : Int)).toNat <<< sp.bitOffset

/-- lane_EXTRA: the insert lane with its row of SPECS (R88). -/
def laneExtra (v : Int) : Word := lane v (fieldSpec .extra)

/-- lane_NFRAMES: the insert lane with its row of SPECS (R89). -/
def laneNframes (v : Int) : Word := lane v (fieldSpec .nframes)

/-- lane_ATYPE: the insert lane with its row of SPECS (R90). -/
def laneAtype (v : Int) : Word := lane v (fieldSpec .atype)

/-- lane_OFFX: the insert lane with its row of SPECS (R91). -/
def laneOffx (v : Int) : Word := lane v (fieldSpec .offx)

/-- lane_OFFY: the insert lane with its row of SPECS (R92). -/
def laneOffy (v : Int) : Word := lane v (fieldSpec .offy)

/-- lane_ASPEED: the insert lane with its row of SPECS (R93). -/
def laneAspeed (v : Int) : Word := lane v (fieldSpec .aspeed)

/-- The merge, the OR of the six lanes (R94; 90_conflicts.md C6). Unvalidated arguments are truncated (R87). -/
def pack (e n t x y s : Int) : Word :=
  laneExtra e ||| laneNframes n ||| laneAtype t ||| laneOffx x ||| laneOffy y ||| laneAspeed s

/-- The merge over any spec table: the OR of the lanes of the values, row by row (R87, R94; 92_eei_decisions.md D22). -/
def packTable : SpecTable → List Int → Word
  | sp :: t, v :: vs => lane v sp ||| packTable t vs
  | _, _ => 0

/-- The extractors of any spec table, row by row (R80). -/
def unpackTable (t : SpecTable) (w : Word) : List Int := t.map (unpack w)

/-- `min <= value and value <= max`, inclusive, on integers (R95). -/
def inRange (v : Int) (sp : FieldSpec) : Bool := decide (specMin sp ≤ v) && decide (v ≤ specMax sp)

/-- The closed enumeration and its sentinel (30_encoding.md R72; decision D9 for the numbering). -/
inductive AnimationType
  | none
  | oscillating
  | forward
  | backward
  | invalid
deriving DecidableEq, Repr

/-- The ordinal of a member (30_encoding.md R72). -/
def animationOrdinal : AnimationType → Int
  | .none        => 0
  | .oscillating => 1
  | .forward     => 2
  | .backward    => 3
  | .invalid     => Config.bfc32.invalidOrdinal

/-- The member an ordinal selects, Invalid outside 0 to the number of members less one (R97). -/
def animationOfOrdinal (ord : Int) : AnimationType :=
  if ord < 0 ∨ (Config.bfc32.animationMembers : Int) ≤ ord then .invalid
  else if ord = 0 then .none
  else if ord = 1 then .oscillating
  else if ord = 2 then .forward
  else .backward

/-- `atype_decode` (R97). -/
def atypeDecode (ord : Int) : Int := animationOrdinal (animationOfOrdinal ord)

/-- The lowest bit of byte lane k: 8k, by the one byte order (20_memory.md R40, R41). -/
def laneLow (k : BitVec 2) : Nat :=
  match Config.bfc32.byteOrder with
  | .littleEndian => 8 * k.toNat

/-- Byte k of a word, `W[8k+7:8k]` (20_memory.md R40). -/
def byteOf (w : Word) (k : BitVec 2) : Byte := (w >>> laneLow k).setWidth 8

/-- The word with byte k replaced and the other 24 bits kept (20_memory.md R43). -/
def withByte (w : Word) (k : BitVec 2) (b : Byte) : Word :=
  (w &&& ~~~((0xFF : Word) <<< laneLow k)) ||| (b.setWidth Config.bfc32.wordW <<< laneLow k)

/-- `le_bytes`, first byte of the stream first (R98). -/
def leBytes (w : Word) : Byte × Byte × Byte × Byte :=
  (w.extractLsb' 0 8, w.extractLsb' 8 8, w.extractLsb' 16 8, w.extractLsb' 24 8)

/-- `from_le_bytes` (R99). -/
def fromLeBytes (b0 b1 b2 b3 : Byte) : Word := b3 ++ b2 ++ b1 ++ b0

end Sys2Proof.Machine
end

