-- ==== Sys2Proof/Machine/State.lean ====
section
/-! DEFINITION. The state of one BFC32 instance (10_state.md section 1), the two ports of the block, and reset. -/

namespace Sys2Proof.Machine

/-- STATUS.ECODE: the cause of the first fault since the last reset or CLR (10_state.md R28; 60_exceptions.md R166).
Code 3 never occurs and has no constructor (93_implementation_defined.md U9). DEDUCED, safe, log 4. -/
inductive Cause
  | none
  | rangeError
  | illegalCommand
deriving DecidableEq, Repr

/-- The 33-bit response of a command (30_encoding.md R61). -/
structure Response where
  err  : Bool
  data : Word
deriving DecidableEq, Repr

/-- What the host can do to the block: present a command word, or assert reset (00_scope.md R7; 70_reset_and_hazards.md
R185, R189). DESIGN CHOICE, unsafe, log 3: reset is one event between commands. -/
inductive HostInput
  | command (c : CmdWord)
  | reset
deriving DecidableEq, Repr

/-- The reasons the machine stops: none. "There is no stuck outcome" (00_scope.md R12), and a fault of the spec is a
recorded error after which the block goes on, a next state (60_exceptions.md R168). DEDUCED, safe, log 6. -/
inductive Fault
deriving DecidableEq, Repr

/-- No meaning for a command. -/
inductive Refusal
  /-- Raised by exec's arm of a command that has no meaning yet; no arm raises it now. Safe: the model stops where the
  hardware goes on. -/
  | notModelled (mnemonic : String)
deriving DecidableEq, Repr

/-- The state. The first ten fields are the spec's, bit for bit (10_state.md section 1), register i having SPECS[i].bitSize
bits: 4, 6, 2, 8, 8, 4 (R20); the last two are the block's
ports (DESIGN CHOICE, safe, log 1). -/
structure State where
  /-- F[0] EXTRA (R20). -/
  extra     : BitVec Config.bfc32.extra.bitSize
  /-- F[1] NFRAMES (R20). -/
  nframes   : BitVec Config.bfc32.nframes.bitSize
  /-- F[2] ATYPE (R20). -/
  atype     : BitVec Config.bfc32.atype.bitSize
  /-- F[3] OFFX (R20). -/
  offx      : BitVec Config.bfc32.offx.bitSize
  /-- F[4] OFFY (R20). -/
  offy      : BitVec Config.bfc32.offy.bitSize
  /-- F[5] ASPEED (R20). -/
  aspeed    : BitVec Config.bfc32.aspeed.bitSize
  /-- ERR, the sticky error flag (R28). -/
  err       : Bool
  /-- ECODE, the cause (R28). -/
  ecode     : Cause
  /-- EFIELD, the failing field's index, 0 unless ECODE is RangeError (R28; log 4). -/
  efield    : FieldIdx
  /-- EVAL, the offending value (R29). -/
  eval      : Word
  /-- The command port and the reset input: what the host will present, oldest first (R7; log 1). -/
  inputs    : List HostInput
  /-- The response port: every response produced so far, oldest first (R61, R190; log 1). -/
  responses : List Response
deriving DecidableEq, Repr

/-- The machine right after reset: "every bit of state is 0" (R36; 70_reset_and_hazards.md R186). The host has presented
nothing and been answered nothing (DESIGN CHOICE, safe, log 1 and 5). -/
def State.reset : State where
  extra     := 0
  nframes   := 0
  atype     := 0
  offx      := 0
  offy      := 0
  aspeed    := 0
  err       := false
  ecode     := .none
  efield    := .extra
  eval      := 0
  inputs    := []
  responses := []

end Sys2Proof.Machine
end

