-- ==== Sys2Proof/Machine/Ops.lean ====
section
/-! DEFINITION. The named operations over the registers, the byte lanes, the response port and the fault record. Every
meaning is written over these. -/

namespace Sys2Proof.Machine

/-- F[i], SPECS[i].bitSize bits (10_state.md R20). -/
def State.field (s : State) : (i : FieldIdx) → BitVec (fieldSpec i).bitSize
  | .extra   => s.extra
  | .nframes => s.nframes
  | .atype   => s.atype
  | .offx    => s.offx
  | .offy    => s.offy
  | .aspeed  => s.aspeed

/-- F[i] at its place in the word: bits bitOffset + bitSize - 1 down to bitOffset, all others 0 (10_state.md R20). -/
def State.placed (s : State) (i : FieldIdx) : Word :=
  (s.field i).setWidth Config.bfc32.wordW <<< (fieldSpec i).bitOffset

/-- W, the 32-bit view of the six registers, each at its place; for the fixed table the concatenation
`F[5] ++ F[4] ++ F[3] ++ F[2] ++ F[1] ++ F[0]` (10_state.md R22, State.word_eq_append). -/
def State.word (s : State) : Word :=
  s.placed .extra ||| s.placed .nframes ||| s.placed .atype ||| s.placed .offx ||| s.placed .offy ||| s.placed .aspeed

/-- The bits of field i in a word, `v[bitOffset+bitSize-1 : bitOffset]` (10_state.md R20). -/
def fieldSlice (v : Word) (i : FieldIdx) : BitVec (fieldSpec i).bitSize :=
  v.extractLsb' (fieldSpec i).bitOffset (fieldSpec i).bitSize

/-- `W <- v`: all six registers from the matching bits of v (00_scope.md R11; 41_unpack_ops.md R110). -/
def State.setWord (s : State) (v : Word) : State :=
  { s with
    extra   := fieldSlice v .extra
    nframes := fieldSlice v .nframes
    atype   := fieldSlice v .atype
    offx    := fieldSlice v .offx
    offy    := fieldSlice v .offy
    aspeed  := fieldSlice v .aspeed }

/-- MemRead(k, 1): byte lane k of W (20_memory.md R42). -/
def State.memRead (s : State) (k : BitVec 2) : Byte := byteOf s.word k

/-- MemWrite(k, 1, b): byte lane k of W, the other 24 bits kept (20_memory.md R43). It cannot fault. -/
def State.memWrite (s : State) (k : BitVec 2) (b : Byte) : State := s.setWord (withByte s.word k b)

/-- val(i): sint(F[i]) when SPECS[i].signed, else uint(F[i]) (10_state.md R21). -/
def State.val (s : State) (i : FieldIdx) : Int :=
  if (fieldSpec i).signed then (s.field i).toInt else ((s.field i).toNat : Int)

/-- `F[i] <- data[bitSize-1:0]`, no other register (42_pack_ops.md R130 to R135). -/
def State.writeField (s : State) (i : FieldIdx) (data : Word) : State :=
  match i with
  | .extra   => { s with extra := data.extractLsb' 0 (fieldSpec .extra).bitSize }
  | .nframes => { s with nframes := data.extractLsb' 0 (fieldSpec .nframes).bitSize }
  | .atype   => { s with atype := data.extractLsb' 0 (fieldSpec .atype).bitSize }
  | .offx    => { s with offx := data.extractLsb' 0 (fieldSpec .offx).bitSize }
  | .offy    => { s with offy := data.extractLsb' 0 (fieldSpec .offy).bitSize }
  | .aspeed  => { s with aspeed := data.extractLsb' 0 (fieldSpec .aspeed).bitSize }

/-- One response on the response port (30_encoding.md R61). -/
def State.answer (s : State) (r : Response) : State := { s with responses := s.responses ++ [r] }

/-- `respond(d)`: the command completes with err = 0 and data d (00_scope.md R11). -/
def State.respond (s : State) (d : Word) : State := s.answer { err := false, data := d }

/-- The record part of a fault's entry: written only when none is held (60_exceptions.md R168, R170). -/
def State.recordFault (s : State) (c : Cause) (f : FieldIdx) (v : Word) : State :=
  if s.err then s else { s with err := true, ecode := c, efield := f, eval := v }

/-- `raise <Fault>(field, value)`, the one fault entry: no field register is written, the record is written if ERR was 0,
and the response is err = 1, data = 0 (60_exceptions.md R168). -/
def State.raise (s : State) (c : Cause) (f : FieldIdx) (v : Word) : State :=
  (s.recordFault c f v).answer { err := true, data := 0 }

/-- `raise RangeError(i, d)` (60_exceptions.md R166, R167). -/
def State.raiseRange (s : State) (i : FieldIdx) (d : Word) : State := s.raise .rangeError i d

/-- `raise IllegalCommand(0, zext_32(cmd.op ++ cmd.sel))` (60_exceptions.md R166, R169). -/
def State.raiseIllegal (s : State) (c : CmdWord) : State :=
  s.raise .illegalCommand .extra ((cmdOp c ++ cmdSel c).setWidth Config.bfc32.wordW)

/-- The end of the recorded-fault condition: all six registers and the whole record to 0. There is no return from a fault;
CLR and reset do this (43_system_ops.md R151; 60_exceptions.md R176; 70_reset_and_hazards.md R187). -/
def State.clear (s : State) : State :=
  { s with
    extra := 0, nframes := 0, atype := 0, offx := 0, offy := 0, aspeed := 0
    err := false, ecode := .none, efield := .extra, eval := 0 }

/-- The reset input: the reset state, no response (70_reset_and_hazards.md R185). DESIGN CHOICE, unsafe, log 3: what the
host will present next and the responses already given stay. -/
def State.applyReset (s : State) : State := s.clear

/-- The port after an input is taken: the inputs still to come. -/
def State.withInputs (s : State) (rest : List HostInput) : State := { s with inputs := rest }

/-- A step at which the host presents nothing: "always ready for the next command, and all state survives"
(60_exceptions.md R180). DESIGN CHOICE, safe, log 2. -/
def State.idle (s : State) : State := s

/-- The port with one more input before all others: the host presents it next. -/
def State.present (s : State) (x : HostInput) : State := { s with inputs := x :: s.inputs }

end Sys2Proof.Machine
end

