-- ==== Sys2Proof/Machine/Operands.lean ====
section
/-! DEFINITION. Operand and result assembly (30_encoding.md R68) and the shared SETF and GETF operations. -/

namespace Sys2Proof.Machine

/-- SETF's operand: data read as a two's-complement integer, for signed and unsigned fields alike (R68). -/
def portValue (data : Word) : Int := data.toInt

/-- A field value on a 32-bit port, `bv_32(value)` (00_scope.md R10; decision D7). -/
def toPort (v : Int) : Word := BitVec.ofInt Config.bfc32.valW v

/-- GETF's result: the register, sign-extended when SPECS[i].signed (OFFX, OFFY), else zero-extended (R68). -/
def State.fieldPort (s : State) (i : FieldIdx) : Word :=
  if (fieldSpec i).signed then (s.field i).signExtend Config.bfc32.valW else (s.field i).setWidth Config.bfc32.valW

/-- STB's result, the lane zero-extended (R68; 42_pack_ops.md R137). -/
def State.lanePort (s : State) (k : BitVec 2) : Word := (s.memRead k).setWidth Config.bfc32.valW

/-- GETAT's result, `bv_32(atype_decode(uint(F[2])))` (41_unpack_ops.md R118). -/
def State.animationPort (s : State) : Word := toPort (atypeDecode ((s.field .atype).toNat : Int))

/-- SETF.i: range check, then the register write and response 0, or RangeError (42_pack_ops.md R130 to R135). -/
def State.setField (s : State) (i : FieldIdx) (data : Word) : State :=
  if inRange (portValue data) (fieldSpec i) then (s.writeField i data).respond 0 else s.raiseRange i data

end Sys2Proof.Machine
end

