-- ==== Sys2Proof/Machine/Flags.lean ====
section
/-! DEFINITION. The status views and the spec constants as software reads them (10_state.md R28 to R33). ERR is the block's
only flag; it changes by State.raise, State.clear and nothing else. -/

namespace Sys2Proof.Machine

/-- The code of a cause (60_exceptions.md R166). -/
def causeCode : Cause → BitVec 2
  | .none           => 0
  | .rangeError     => 1
  | .illegalCommand => 2

/-- The index of a field (30_encoding.md R63). -/
def fieldIndex : FieldIdx → BitVec 3
  | .extra   => 0
  | .nframes => 1
  | .atype   => 2
  | .offx    => 3
  | .offy    => 4
  | .aspeed  => 5

/-- STATUS: bit 0 ERR, bits 2:1 ECODE, bit 3 zero, bits 6:4 EFIELD, bits 31:7 zero (10_state.md R28). -/
def State.statusReg (s : State) : Word :=
  (0#25) ++ fieldIndex s.efield ++ (0#1) ++ causeCode s.ecode ++ BitVec.ofBool s.err

/-- EVAL (10_state.md R29). -/
def State.evalReg (s : State) : Word := s.eval

/-- EMIN: the failing field's lower bound for a RangeError, else 0 (10_state.md R30). -/
def State.eminReg (s : State) : Word :=
  if s.ecode = .rangeError then toPort (specMin (fieldSpec s.efield)) else 0

/-- EMAX: the failing field's upper bound for a RangeError, else 0 (10_state.md R31). -/
def State.emaxReg (s : State) : Word :=
  if s.ecode = .rangeError then toPort (specMax (fieldSpec s.efield)) else 0

/-- The output err_o, equal to ERR at all times (10_state.md R33; 60_exceptions.md R175). -/
def State.errO (s : State) : Bool := s.err

/-- SPECi: bits 5:0 bitSize, bit 6 zero, bit 7 signed, bits 12:8 bitOffset, bits 31:13 zero (10_state.md R32). -/
def specReg (sp : FieldSpec) : Word :=
  (0#19) ++ BitVec.ofNat 5 sp.bitOffset ++ BitVec.ofBool sp.signed ++ (0#1) ++ BitVec.ofNat 6 sp.bitSize

end Sys2Proof.Machine
end

