-- ==== Sys2Proof/Machine/Pack.lean ====
section
/-! DEFINITION. The pack-direction commands (42_pack_ops.md R130 to R137). -/

namespace Sys2Proof.Machine

/-- SETF.EXTRA (R130). -/
def execSetfExtra (v : Word) (s : State) : Host.Outcome State Fault Refusal := .next (s.setField .extra v)

/-- SETF.NFRAMES (R131). -/
def execSetfNframes (v : Word) (s : State) : Host.Outcome State Fault Refusal := .next (s.setField .nframes v)

/-- SETF.ATYPE (R132). -/
def execSetfAtype (v : Word) (s : State) : Host.Outcome State Fault Refusal := .next (s.setField .atype v)

/-- SETF.OFFX (R133). -/
def execSetfOffx (v : Word) (s : State) : Host.Outcome State Fault Refusal := .next (s.setField .offx v)

/-- SETF.OFFY (R134). -/
def execSetfOffy (v : Word) (s : State) : Host.Outcome State Fault Refusal := .next (s.setField .offy v)

/-- SETF.ASPEED (R135). -/
def execSetfAspeed (v : Word) (s : State) : Host.Outcome State Fault Refusal := .next (s.setField .aspeed v)

/-- STW, answered whether or not a fault is recorded (R136; 60_exceptions.md R170). -/
def execStw (s : State) : Host.Outcome State Fault Refusal := .next (s.respond s.word)

/-- STB k in 0..3; a larger selector is no STB (R137). -/
def execStb (k : BitVec 2) (s : State) : Host.Outcome State Fault Refusal := .next (s.respond (s.lanePort k))

end Sys2Proof.Machine
end

