-- ==== Sys2Proof/Machine/System.lean ====
section
/-! DEFINITION. The system commands (43_system_ops.md R150 to R161). -/

namespace Sys2Proof.Machine

/-- NOP (R150). -/
def execNop (s : State) : Host.Outcome State Fault Refusal := .next (s.respond 0)

/-- CLR (R151). -/
def execClr (s : State) : Host.Outcome State Fault Refusal := .next (s.clear.respond 0)

/-- RDST.STATUS (R152). -/
def execRdstStatus (s : State) : Host.Outcome State Fault Refusal := .next (s.respond s.statusReg)

/-- RDST.EVAL (R153). -/
def execRdstEval (s : State) : Host.Outcome State Fault Refusal := .next (s.respond s.evalReg)

/-- RDST.EMIN (R154). -/
def execRdstEmin (s : State) : Host.Outcome State Fault Refusal := .next (s.respond s.eminReg)

/-- RDST.EMAX (R155). -/
def execRdstEmax (s : State) : Host.Outcome State Fault Refusal := .next (s.respond s.emaxReg)

/-- RDSPEC.EXTRA (R156). -/
def execRdspecExtra (s : State) : Host.Outcome State Fault Refusal := .next (s.respond (specReg (fieldSpec .extra)))

/-- RDSPEC.NFRAMES (R157). -/
def execRdspecNframes (s : State) : Host.Outcome State Fault Refusal := .next (s.respond (specReg (fieldSpec .nframes)))

/-- RDSPEC.ATYPE (R158). -/
def execRdspecAtype (s : State) : Host.Outcome State Fault Refusal := .next (s.respond (specReg (fieldSpec .atype)))

/-- RDSPEC.OFFX (R159). -/
def execRdspecOffx (s : State) : Host.Outcome State Fault Refusal := .next (s.respond (specReg (fieldSpec .offx)))

/-- RDSPEC.OFFY (R160). -/
def execRdspecOffy (s : State) : Host.Outcome State Fault Refusal := .next (s.respond (specReg (fieldSpec .offy)))

/-- RDSPEC.ASPEED (R161). -/
def execRdspecAspeed (s : State) : Host.Outcome State Fault Refusal := .next (s.respond (specReg (fieldSpec .aspeed)))

end Sys2Proof.Machine
end

