-- ==== Sys2Proof/Machine/Unpack.lean ====
section
/-! DEFINITION. The unpack-direction commands (41_unpack_ops.md R110 to R118). -/

namespace Sys2Proof.Machine

/-- LDW (R110). -/
def execLdw (w : Word) (s : State) : Host.Outcome State Fault Refusal := .next ((s.setWord w).respond 0)

/-- LDB k in 0..3; a larger selector is no LDB (R111). -/
def execLdb (k : BitVec 2) (b : Byte) (s : State) : Host.Outcome State Fault Refusal :=
  .next ((s.memWrite k b).respond 0)

/-- GETF.EXTRA (R112). -/
def execGetfExtra (s : State) : Host.Outcome State Fault Refusal := .next (s.respond (s.fieldPort .extra))

/-- GETF.NFRAMES (R113). -/
def execGetfNframes (s : State) : Host.Outcome State Fault Refusal := .next (s.respond (s.fieldPort .nframes))

/-- GETF.ATYPE (R114). -/
def execGetfAtype (s : State) : Host.Outcome State Fault Refusal := .next (s.respond (s.fieldPort .atype))

/-- GETF.OFFX (R115). -/
def execGetfOffx (s : State) : Host.Outcome State Fault Refusal := .next (s.respond (s.fieldPort .offx))

/-- GETF.OFFY (R116). -/
def execGetfOffy (s : State) : Host.Outcome State Fault Refusal := .next (s.respond (s.fieldPort .offy))

/-- GETF.ASPEED (R117). -/
def execGetfAspeed (s : State) : Host.Outcome State Fault Refusal := .next (s.respond (s.fieldPort .aspeed))

/-- GETAT (R118). -/
def execGetat (s : State) : Host.Outcome State Fault Refusal := .next (s.respond s.animationPort)

end Sys2Proof.Machine
end

