-- ==== Sys2Proof/Machine/Dispatch.lean ====
section
/-! DEFINITION. exec: one arm per command, each a direct call of its meaning. -/

namespace Sys2Proof.Machine

def exec (i : Instr) (s : State) : Host.Outcome State Fault Refusal :=
  match i with
  | .nop => Sys2Proof.Machine.execNop s
  | .clr => Sys2Proof.Machine.execClr s
  | .ldw w => Sys2Proof.Machine.execLdw w s
  | .stw => Sys2Proof.Machine.execStw s
  | .ldb k b => Sys2Proof.Machine.execLdb k b s
  | .stb k => Sys2Proof.Machine.execStb k s
  | .setfExtra v => Sys2Proof.Machine.execSetfExtra v s
  | .setfNframes v => Sys2Proof.Machine.execSetfNframes v s
  | .setfAtype v => Sys2Proof.Machine.execSetfAtype v s
  | .setfOffx v => Sys2Proof.Machine.execSetfOffx v s
  | .setfOffy v => Sys2Proof.Machine.execSetfOffy v s
  | .setfAspeed v => Sys2Proof.Machine.execSetfAspeed v s
  | .getfExtra => Sys2Proof.Machine.execGetfExtra s
  | .getfNframes => Sys2Proof.Machine.execGetfNframes s
  | .getfAtype => Sys2Proof.Machine.execGetfAtype s
  | .getfOffx => Sys2Proof.Machine.execGetfOffx s
  | .getfOffy => Sys2Proof.Machine.execGetfOffy s
  | .getfAspeed => Sys2Proof.Machine.execGetfAspeed s
  | .getat => Sys2Proof.Machine.execGetat s
  | .rdstStatus => Sys2Proof.Machine.execRdstStatus s
  | .rdstEval => Sys2Proof.Machine.execRdstEval s
  | .rdstEmin => Sys2Proof.Machine.execRdstEmin s
  | .rdstEmax => Sys2Proof.Machine.execRdstEmax s
  | .rdspecExtra => Sys2Proof.Machine.execRdspecExtra s
  | .rdspecNframes => Sys2Proof.Machine.execRdspecNframes s
  | .rdspecAtype => Sys2Proof.Machine.execRdspecAtype s
  | .rdspecOffx => Sys2Proof.Machine.execRdspecOffx s
  | .rdspecOffy => Sys2Proof.Machine.execRdspecOffy s
  | .rdspecAspeed => Sys2Proof.Machine.execRdspecAspeed s

end Sys2Proof.Machine
end

