-- ==== Sys2Proof/Machine/Accept.lean ====
section
/-! DEFINITION. What one host input does: a command word is decoded and executed, an illegal word records IllegalCommand, the
reset input resets (30_encoding.md R66; 60_exceptions.md R169, R171; 70_reset_and_hazards.md R185). -/

namespace Sys2Proof.Machine

/-- One command word: decode first (IllegalCommand), then the command (R171). -/
def acceptCommand (c : CmdWord) (s : State) : Host.Outcome State Fault Refusal :=
  match decode c with
  | .ok i    => exec i s
  | .error _ => .next (s.raiseIllegal c)

/-- One host input. -/
def acceptInput (x : HostInput) (s : State) : Host.Outcome State Fault Refusal :=
  match x with
  | .command c => acceptCommand c s
  | .reset     => .next s.applyReset

/-- Commands one after another, each accepted in the state the one before left (20_memory.md R48). -/
def runInstrs : List Instr → State → Host.Outcome State Fault Refusal
  | [], s => .next s
  | i :: is, s =>
    match exec i s with
    | .next t    => runInstrs is t
    | .fault r   => .fault r
    | .refused r => .refused r

end Sys2Proof.Machine
end

