-- ==== Sys2Proof/Machine/Step.lean ====
section
/-! DEFINITION. One step: the host's next input is taken from the port and carried out, as one indivisible step
(00_scope.md R7; 70_reset_and_hazards.md R193). -/

namespace Sys2Proof.Machine

/-- The step. With nothing presented the block waits (log 2). -/
def step (s : State) : Host.Outcome State Fault Refusal :=
  match s.inputs with
  | []        => .next s.idle
  | x :: rest => acceptInput x (s.withInputs rest)

/-- s with a table row's word presented next, so that the very next step runs it (DESIGN CHOICE, safe, log 5). -/
def State.withFetchWord (s : State) (nbits w : Nat) : State := s.present (.command (tableWord nbits w))

end Sys2Proof.Machine
end

