-- ==== Sys2Proof/Machine/Assembly.lean ====
section
/-! DEFINITION. The textual form of a command and of its word (30_encoding.md R70). What R70 leaves open of the text (how many
hexadecimal digits, capital letters) is a DESIGN CHOICE, safe, log 11. -/

namespace Sys2Proof.Machine

/-- One hexadecimal digit. -/
def hexDigit (n : Nat) : Char :=
  if n < 10 then Char.ofNat (48 + n) else Char.ofNat (55 + n)

/-- The low `digits` hexadecimal digits of n, most significant first. -/
def hexChars : Nat → Nat → List Char
  | 0, _ => []
  | k + 1, n => hexChars k (n / 16) ++ [hexDigit (n % 16)]

/-- A hexadecimal literal of the text form, with its 0x prefix. -/
def hexText (digits n : Nat) : String := "0x" ++ String.ofList (hexChars digits n)

/-- The field's mnemonic (00_scope.md glossary). -/
def fieldMnemonic : FieldIdx → String
  | .extra   => "EXTRA"
  | .nframes => "NFRAMES"
  | .atype   => "ATYPE"
  | .offx    => "OFFX"
  | .offy    => "OFFY"
  | .aspeed  => "ASPEED"

/-- `SETF.<FIELD> <value>`, the value a signed decimal. -/
def setfText (i : FieldIdx) (v : Word) : String := "SETF." ++ fieldMnemonic i ++ " " ++ toString v.toInt

/-- The line of a command: mnemonic and operands (R70). -/
def asmText : Instr → String
  | .nop           => "NOP"
  | .clr           => "CLR"
  | .ldw w         => "LDW " ++ hexText 8 w.toNat
  | .stw           => "STW"
  | .ldb k b       => "LDB " ++ toString k.toNat ++ ", " ++ hexText 2 b.toNat
  | .stb k         => "STB " ++ toString k.toNat
  | .setfExtra v   => setfText .extra v
  | .setfNframes v => setfText .nframes v
  | .setfAtype v   => setfText .atype v
  | .setfOffx v    => setfText .offx v
  | .setfOffy v    => setfText .offy v
  | .setfAspeed v  => setfText .aspeed v
  | .getfExtra     => "GETF.EXTRA"
  | .getfNframes   => "GETF.NFRAMES"
  | .getfAtype     => "GETF.ATYPE"
  | .getfOffx      => "GETF.OFFX"
  | .getfOffy      => "GETF.OFFY"
  | .getfAspeed    => "GETF.ASPEED"
  | .getat         => "GETAT"
  | .rdstStatus    => "RDST.STATUS"
  | .rdstEval      => "RDST.EVAL"
  | .rdstEmin      => "RDST.EMIN"
  | .rdstEmax      => "RDST.EMAX"
  | .rdspecExtra   => "RDSPEC.EXTRA"
  | .rdspecNframes => "RDSPEC.NFRAMES"
  | .rdspecAtype   => "RDSPEC.ATYPE"
  | .rdspecOffx    => "RDSPEC.OFFX"
  | .rdspecOffy    => "RDSPEC.OFFY"
  | .rdspecAspeed  => "RDSPEC.ASPEED"

/-- The encoding of a line, `op ++ sel ++ data` as ten hexadecimal digits (R70). -/
def asmWordText (i : Instr) : String := hexText 10 (encode i).toNat

/-- `SETF.<FIELD> <value>` as a command: "assembles to `bv_32(value)`" (R70). DESIGN CHOICE, unsafe,
log 16: R70 admits -2147483648..2147483647 only and says nothing of another value; this function takes any integer and wraps
it to VALW bits as bv_32 does, so 4294967296 assembles as 0 would. -/
def asmSetf (i : FieldIdx) (v : Int) : Instr := .setf i (BitVec.ofInt Config.bfc32.valW v)

end Sys2Proof.Machine
end

