-- ==== Sys2Proof/Machine/HostSide.lean ====
section
/-! DEFINITION. What the host does with the block: the pseudo-instructions (30_encoding.md R71), issuing commands
(70_reset_and_hazards.md R189), reading a fault report, and where the word stands in the container (20_memory.md R50,
context). -/

namespace Sys2Proof.Machine

/-- The pseudo-instructions of R71. -/
inductive Pseudo
  | unpack (w : Word)
  | pack6 (e n t x y s : Int)
  | ldw4 (b0 b1 b2 b3 : Byte)
  | stw4
deriving DecidableEq, Repr

/-- The ordered list of commands a pseudo-instruction stands for (R71). PACK6's values are assembled by asmSetf: what one
outside 32 bits assembles to is the model's choice, log 16. -/
def expand : Pseudo → List Instr
  | .unpack w => [.ldw w, .getfExtra, .getfNframes, .getfAtype, .getfOffx, .getfOffy, .getfAspeed]
  | .pack6 e n t x y s =>
    [asmSetf .extra e, asmSetf .nframes n, asmSetf .atype t, asmSetf .offx x, asmSetf .offy y, asmSetf .aspeed s, .stw]
  | .ldw4 b0 b1 b2 b3 => [.ldb 0 b0, .ldb 1 b1, .ldb 2 b2, .ldb 3 b3]
  | .stw4 => [.stb 0, .stb 1, .stb 2, .stb 3]

/-- The host issues commands after what it has already put on the port (20_memory.md R48: in the order issued). -/
def State.issue (s : State) (is : List Instr) : State :=
  { s with inputs := s.inputs ++ is.map fun i => .command (encode i) }

/-- The report of a recorded RangeError: field name, offending value, bounds (10_state.md R28; 70_reset_and_hazards.md
R189). None when no RangeError is recorded. -/
def State.rangeReport (s : State) : Option (String × Int × Int × Int) :=
  if s.ecode = .rangeError then
    some (fieldMnemonic s.efield, s.eval.toInt, s.eminReg.toInt, s.emaxReg.toInt)
  else none

/-- The file offset of the first byte of tile i's packed word in a container of n tiles (20_memory.md R50, context). -/
def attributeOffset (n i : Nat) : Nat := 16 + 4 * n + 4 * i

end Sys2Proof.Machine
end

