-- ==== Sys2Proof/Safety.lean ====
section
/-! DEFINITION. The terms claims are stated in: what two states share, what a step answers, the invariant of the fault
record, the accept sets, and when a run went wrong. -/

namespace Sys2Proof.Machine

/-- The two states agree on all six field registers. -/
abbrev SameFields (s t : State) : Prop :=
  t.extra = s.extra ∧ t.nframes = s.nframes ∧ t.atype = s.atype ∧ t.offx = s.offx ∧ t.offy = s.offy ∧ t.aspeed = s.aspeed

/-- The two states agree on every field register but one. -/
abbrev SameFieldsBut (i : FieldIdx) (s t : State) : Prop :=
  (i ≠ .extra → t.extra = s.extra) ∧ (i ≠ .nframes → t.nframes = s.nframes) ∧ (i ≠ .atype → t.atype = s.atype) ∧
  (i ≠ .offx → t.offx = s.offx) ∧ (i ≠ .offy → t.offy = s.offy) ∧ (i ≠ .aspeed → t.aspeed = s.aspeed)

/-- The two states agree on the whole fault record. -/
abbrev SameStatus (s t : State) : Prop :=
  t.err = s.err ∧ t.ecode = s.ecode ∧ t.efield = s.efield ∧ t.eval = s.eval

/-- The command answered exactly one response, and took nothing from the port. -/
abbrev Answered (s t : State) (r : Response) : Prop :=
  t.responses = s.responses ++ [r] ∧ t.inputs = s.inputs

/-- A completed command's response (30_encoding.md R61). -/
abbrev okResponse (d : Word) : Response := { err := false, data := d }

/-- A faulted command's response (30_encoding.md R61). -/
abbrev faultResponse : Response := { err := true, data := 0 }

/-- The smallest accepted value of each field, as the table of 40_field_functions.md R96 lists it. -/
def acceptLow : FieldIdx → Int
  | .extra   => 0
  | .nframes => 0
  | .atype   => 0
  | .offx    => -128
  | .offy    => -128
  | .aspeed  => 0

/-- The greatest accepted value of each field, as the table of 40_field_functions.md R96 lists it. -/
def acceptHigh : FieldIdx → Int
  | .extra   => 15
  | .nframes => 63
  | .atype   => 3
  | .offx    => 127
  | .offy    => 127
  | .aspeed  => 15

/-- v is in the accept set of field i (R96). -/
abbrev Accepts (i : FieldIdx) (v : Int) : Prop := acceptLow i ≤ v ∧ v ≤ acceptHigh i

/-- The opcode and selector pairs that are no command (30_encoding.md R66). -/
abbrev IllegalOpSel (op sel : BitVec 4) : Prop :=
  (0xB ≤ op.toNat) ∨
  ((op.toNat = 0x6 ∨ op.toNat = 0x7 ∨ op.toNat = 0xA) ∧ 6 ≤ sel.toNat) ∨
  ((op.toNat = 0x4 ∨ op.toNat = 0x5 ∨ op.toNat = 0x9) ∧ 4 ≤ sel.toNat)

/-- The illegal command words (30_encoding.md R66; 60_exceptions.md R169). -/
abbrev IllegalWord (c : CmdWord) : Prop := IllegalOpSel (cmdOp c) (cmdSel c)

/-- The fault record is one the block can hold: ERR = 1 exactly when a cause is recorded; no cause, all zero; a RangeError
holds a value outside its field's accept set; an IllegalCommand holds the eight bits of an illegal word
(10_state.md R28, R29; 60_exceptions.md R166). -/
def RecordOk (s : State) : Prop :=
  match s.ecode with
  | .none           => s.err = false ∧ s.efield = .extra ∧ s.eval = 0
  | .rangeError     => s.err = true ∧ ¬ Accepts s.efield s.eval.toInt
  | .illegalCommand => s.err = true ∧ s.efield = .extra ∧
      ∃ op sel : BitVec 4, IllegalOpSel op sel ∧ s.eval = (op ++ sel).setWidth 32

/-- From s the command enters a fault with this cause, field and value, and ends in t: no field register written, the record
written when none was held and kept when one was, one response with err = 1 and data = 0 (60_exceptions.md R168). -/
abbrev FaultEntered (s t : State) (c : Cause) (f : FieldIdx) (v : Word) : Prop :=
  SameFields s t ∧ Answered s t faultResponse ∧
  (s.err = false → t.err = true ∧ t.ecode = c ∧ t.efield = f ∧ t.eval = v) ∧
  (s.err = true → SameStatus s t)

/-- The command completes from s with response data d and changes no field register and no part of the record. -/
abbrev ReadsAs (i : Instr) (s : State) (d : Word) : Prop :=
  ∃ t, exec i s = .next t ∧ SameFields s t ∧ SameStatus s t ∧ Answered s t (okResponse d)

/-- The EVAL of an illegal word, `zext_32(cmd.op ++ cmd.sel)` (60_exceptions.md R166). -/
abbrev illegalEval (c : CmdWord) : Word := (cmdOp c ++ cmdSel c).setWidth 32

/-- Every word w with `w AND mask = m` is the command f makes of it (30_encoding.md R67). -/
abbrev RowDecodes (m mask : CmdWord) (f : CmdWord → Instr) : Prop :=
  ∀ c : CmdWord, c &&& mask = m → decode c = .ok (f c)

/-- A run went wrong exactly when its final ERR is 1 (70_reset_and_hazards.md R190). -/
abbrev WentWrong (s : State) : Prop := s.err = true

/-- What one command makes of a state, the port apart: the decoded command's effect, or the IllegalCommand record
(20_memory.md R48, the function that is folded). -/
def commandEffect (s : State) (c : CmdWord) : State :=
  match acceptCommand c s with
  | .next t => t
  | _ => s

end Sys2Proof.Machine
end

