-- ==== Sys2Proof/Certificates/Slice0/Obligations.lean ====
section
/-! DEFINITION. The statements for the provers. Each docstring names the rule of spec/ it formalises. Where a rule is marked
as the spec's own decision (92_eei_decisions.md), the docstring names the decision. -/

open Sys2Proof Sys2Proof.Machine

/-! ### Encodings -/

/-- 30_encoding.md R60, R62, R70: decoding the word of any command gives that command back, every operand at every value
(the codes are the spec's decisions D4 and D5). -/
def Obligations.DecodeOfEncodeIsTheCommand : Prop :=
  ∀ i : Instr, decode (encode i) = .ok i

/-- 30_encoding.md R66: each of the 2^40 words is one of the 29 commands or illegal, never both, and an illegal word raises
IllegalCommand (decision D13). -/
def Obligations.DecodingIsTotal : Prop :=
  (∀ c : CmdWord, (∃ i, decode c = .ok i) ↔ ¬ IllegalWord c) ∧
  ∀ (c : CmdWord) (s : State), IllegalWord c →
    ∃ t, acceptCommand c s = .next t ∧ FaultEntered s t .illegalCommand .extra (illegalEval c)

/-- 30_encoding.md R67: a word is the command of a row exactly when `c AND mask = match`, no word matches two rows, and the
bits a command ignores change nothing (decision D13). -/
def Obligations.DecoderReadsTheTablesBits : Prop :=
  (∀ (c : CmdWord) (i : Instr), decode c = .ok i → c &&& (opcodeRow i).2 = (opcodeRow i).1) ∧
  (∀ (c : CmdWord) (j : Instr), c &&& (opcodeRow j).2 = (opcodeRow j).1 →
    ∃ i, decode c = .ok i ∧ opcodeRow i = opcodeRow j) ∧
  (∀ (op sel sel' : BitVec 4) (d d' : Word), op = 0x0 ∨ op = 0x1 ∨ op = 0x3 ∨ op = 0x8 →
    decode (cmdWord op sel d) = decode (cmdWord op sel' d')) ∧
  (∀ (sel sel' : BitVec 4) (d : Word), decode (cmdWord 0x2 sel d) = decode (cmdWord 0x2 sel' d)) ∧
  (∀ (op sel : BitVec 4) (d d' : Word), op = 0x5 ∨ op = 0x7 ∨ op = 0x9 ∨ op = 0xA →
    decode (cmdWord op sel d) = decode (cmdWord op sel d')) ∧
  (∀ (sel : BitVec 4) (d d' : Word), d.extractLsb' 0 8 = d'.extractLsb' 0 8 →
    decode (cmdWord 0x4 sel d) = decode (cmdWord 0x4 sel d'))

/-- Words written out from the spec's encodings and 95_test_vectors.md decode to the commands they stand for. -/
def Obligations.SpecWordsDecode : Prop :=
  decode 0x2012345678#40 = .ok (.ldw 0x12345678) ∧ decode 0x4300000080#40 = .ok (.ldb 3 0x80) ∧
  decode 0x5200000000#40 = .ok (.stb 2) ∧ decode 0x63FFFFFFFD#40 = .ok (.setfOffx 0xFFFFFFFD) ∧
  decode 0x7300000000#40 = .ok .getfOffx ∧ decode 0x0F12345678#40 = .ok .nop ∧
  decode 0x9300000000#40 = .ok .rdstEmax ∧ decode 0xA500000000#40 = .ok .rdspecAspeed

/-! ### The step -/

/-- When the word on the command port decodes to a command, the step is that command's exec, once the word is taken from the
port; and a table row's word presented next is run by the very next step (00_scope.md section 4; log 1 and 5). -/
def Obligations.StepRunsTheDecodedCommand : Prop :=
  (∀ (s : State) (c : CmdWord) (rest : List HostInput) (i : Instr), s.inputs = .command c :: rest → decode c = .ok i →
    step s = exec i (s.withInputs rest)) ∧
  ∀ (s : State) (nbits w : Nat) (i : Instr), decodeTableWord nbits w = some i → step (s.withFetchWord nbits w) = exec i s

/-- 60_exceptions.md R169: the step that meets an illegal word on the command port raises IllegalCommand and takes the word
from the port (decision D13; the port is log 1). -/
def Obligations.StepRaisesIllegalCommand : Prop :=
  ∀ (s : State) (c : CmdWord) (rest : List HostInput), s.inputs = .command c :: rest → IllegalWord c →
    ∃ t, step s = .next t ∧ FaultEntered (s.withInputs rest) t .illegalCommand .extra (illegalEval c)

/-- 70_reset_and_hazards.md section 1: the reset input leaves the reset state in every register and the record, and answers
nothing (decision D10). That it is one event and keeps the port's lists is the model's choice, log 3. -/
def Obligations.ResetInputLeavesTheResetState : Prop :=
  ∀ (s : State) (rest : List HostInput), s.inputs = .reset :: rest →
    ∃ t, step s = .next t ∧ SameFields State.reset t ∧ SameStatus State.reset t ∧
      t.responses = s.responses ∧ t.inputs = rest

/-- The model's choice, log 2: with nothing presented the block waits and every bit of its state stays. -/
def Obligations.StepWithoutInputWaits : Prop :=
  ∀ s : State, s.inputs = [] → step s = .next s

/-- 00_scope.md R12: every command word in every state has exactly one outcome, completion or fault, with one response; a
fault leaves a recorded, sticky error (decision D11). -/
def Obligations.EveryCommandAnswersOnce : Prop :=
  ∀ (c : CmdWord) (s : State), ∃ t r, acceptCommand c s = .next t ∧ Answered s t r ∧
    (r.err = true → r.data = 0 ∧ SameFields s t ∧ t.err = true)

/-- 70_reset_and_hazards.md section 3: the block cannot hang: from every state the step gives a next state, takes at most the
first input from the port, and loses no response already given. That a step with nothing presented waits and that reset is
an input are the model's choices, log 2 and 3. -/
def Obligations.EveryStepGivesANextState : Prop :=
  ∀ s : State, ∃ t, step s = .next t ∧ t.inputs = s.inputs.tail ∧ s.responses <+: t.responses

/-- 20_memory.md R48: the state after a command sequence is the left fold of the one-command function over the sequence
(decision D19). That the sequence stands on the port as a list in State, and is run one entry a step, is the model's choice,
log 1. -/
def Obligations.RunIsTheLeftFold : Prop :=
  ∀ (cs : List CmdWord) (rest : List HostInput) (s : State), s.inputs = cs.map HostInput.command ++ rest →
    Host.Core.run Sys2Proof.core cs.length s = .next ((cs.foldl commandEffect s).withInputs rest)

/-- 70_reset_and_hazards.md R190: from a state with no fault recorded, over commands none of which is CLR, the final ERR is 1
exactly when some response had err = 1; and the same after a CLR from any state (decision D26). The list of responses stands
in State by the model's choice, log 1. -/
def Obligations.RunWentWrongIffSomeErrResponse : Prop :=
  (∀ (cs : List CmdWord) (s : State), s.err = false → (∀ c ∈ cs, decode c ≠ .ok .clr) →
    (WentWrong (cs.foldl commandEffect s) ↔
      ∃ r ∈ (cs.foldl commandEffect s).responses.drop s.responses.length, r.err = true)) ∧
  ∀ (cs : List CmdWord) (clr : CmdWord) (s : State), decode clr = .ok .clr → (∀ c ∈ cs, decode c ≠ .ok .clr) →
    (WentWrong ((clr :: cs).foldl commandEffect s) ↔
      ∃ r ∈ ((clr :: cs).foldl commandEffect s).responses.drop (s.responses.length + 1), r.err = true)

/-! ### Reset and the record's invariant -/

/-- 10_state.md R36: after reset every bit of state is 0, so every view reads 0, every field value is in range, and the
animation type is None (decision D10). -/
def Obligations.ResetLeavesEveryBitZero : Prop :=
  (State.reset.extra = 0 ∧ State.reset.nframes = 0 ∧ State.reset.atype = 0 ∧ State.reset.offx = 0 ∧
    State.reset.offy = 0 ∧ State.reset.aspeed = 0) ∧
  (State.reset.err = false ∧ State.reset.ecode = .none ∧ State.reset.efield = .extra ∧ State.reset.eval = 0) ∧
  State.reset.word = 0 ∧ (∀ i, State.reset.val i = 0 ∧ Accepts i (State.reset.val i)) ∧
  (State.reset.statusReg = 0 ∧ State.reset.evalReg = 0 ∧ State.reset.eminReg = 0 ∧ State.reset.emaxReg = 0 ∧
    State.reset.errO = false) ∧
  animationOfOrdinal (State.reset.val .atype) = .none

/-- The record's invariant holds at reset (10_state.md sections 4 and 7). -/
def Obligations.RecordOkAtReset : Prop := RecordOk State.reset

/-- Every step keeps the record's invariant: ERR = 1 exactly when a cause is recorded, a RangeError holds a value outside its
field's accept set, an IllegalCommand the code and selector of an illegal word (10_state.md section 4; 60_exceptions.md
section 1). -/
def Obligations.StepKeepsTheRecordOk : Prop :=
  ∀ s t : State, RecordOk s → step s = .next t → RecordOk t

/-! ### Faults -/

/-- 60_exceptions.md R165: a command answers err = 1 exactly when its word is illegal (R169) or it is a SETF whose value is out
of range (R167), and the two exclude each other (decision D11). -/
def Obligations.FaultsOccurExactlyThen : Prop :=
  ∀ (c : CmdWord) (s : State), ∃ t r, acceptCommand c s = .next t ∧ t.responses = s.responses ++ [r] ∧
    (r.err = true ↔ IllegalWord c ∨ ∃ i v, decode c = .ok (.setf i v) ∧ ¬ Accepts i v.toInt) ∧
    ¬ (IllegalWord c ∧ ∃ i v, decode c = .ok (.setf i v))

/-- 60_exceptions.md R168: whenever a command answers a fault, no field register is written and the record, if none was
held, becomes the cause, field and value R166 lists; a record already held stays (decisions D11, D12). -/
def Obligations.FaultEntryWritesOnlyTheRecord : Prop :=
  ∀ (c : CmdWord) (s t : State) (r : Response), acceptCommand c s = .next t → t.responses = s.responses ++ [r] →
    r.err = true →
    (IllegalWord c ∧ FaultEntered s t .illegalCommand .extra (illegalEval c)) ∨
    ∃ i v, decode c = .ok (.setf i v) ∧ ¬ Accepts i v.toInt ∧ FaultEntered s t .rangeError i v

/-- 60_exceptions.md section 2 (the record is sticky and first-fault-wins): once ERR = 1 no command but CLR changes any part of the record (decisions D11, D14). -/
def Obligations.RecordIsSticky : Prop :=
  ∀ (c : CmdWord) (s t : State), s.err = true → decode c ≠ .ok .clr → acceptCommand c s = .next t → SameStatus s t

/-- 60_exceptions.md section 2: a recorded fault blocks nothing. Two states that agree on the field registers agree on them
after any command, and the response is the same unless the command is one of the four RDST, which read the record (log
10). -/
def Obligations.RecordNeverSteersTheDatapath : Prop :=
  ∀ (c : CmdWord) (s s' t t' : State), SameFields s s' → acceptCommand c s = .next t → acceptCommand c s' = .next t' →
    SameFields t t' ∧
    (decode c ≠ .ok .rdstStatus → decode c ≠ .ok .rdstEval → decode c ≠ .ok .rdstEmin → decode c ≠ .ok .rdstEmax →
      ∃ r, t.responses = s.responses ++ [r] ∧ t'.responses = s'.responses ++ [r])

/-- 10_state.md section 2, the access table: only CLR, LDW, LDB and an accepted SETF write a field register, and only CLR and
a rejected SETF with ERR = 0 write the record. -/
def Obligations.OnlyTheListedCommandsWrite : Prop :=
  ∀ (i : Instr) (s t : State), exec i s = .next t →
    (¬ SameFields s t → i = .clr ∨ (∃ w, i = .ldw w) ∨ (∃ k b, i = .ldb k b) ∨
      ∃ j v, i = .setf j v ∧ Accepts j v.toInt) ∧
    (¬ SameStatus s t → i = .clr ∨ ∃ j v, i = .setf j v ∧ ¬ Accepts j v.toInt ∧ s.err = false)

/-- 20_memory.md section 1: repeating a command leaves the registers and the record as the first time left them. -/
def Obligations.RepeatingACommandIsIdempotent : Prop :=
  ∀ (i : Instr) (s t u : State), exec i s = .next t → exec i t = .next u → SameFields t u ∧ SameStatus t u

/-! ### Unpack-direction commands -/

/-- 41_unpack_ops.md R110: LDW writes all six registers from the word's slices, so every field value is the word unpacked; the
record stays. -/
def Obligations.LdwUnpacksTheWord : Prop :=
  RowDecodes 0x2000000000 0xF000000000 (fun c => .ldw (cmdData c)) ∧
  ∀ (w : Word) (s : State), ∃ t, exec (.ldw w) s = .next t ∧
    (t.extra = w.extractLsb' 0 4 ∧ t.nframes = w.extractLsb' 4 6 ∧ t.atype = w.extractLsb' 10 2 ∧
      t.offx = w.extractLsb' 12 8 ∧ t.offy = w.extractLsb' 20 8 ∧ t.aspeed = w.extractLsb' 28 4) ∧
    t.word = w ∧ (∀ i, t.val i = unpack w (fieldSpec i)) ∧ SameStatus s t ∧ Answered s t (okResponse 0)

/-- 41_unpack_ops.md R111: LDB writes its byte lane and no other; a selector of 4 to 15 raises IllegalCommand; four LDBs of a
stream's bytes, in any order, have the effect of one LDW of from_le_bytes of them. -/
def Obligations.LdbWritesOneByteLane : Prop :=
  RowDecodes 0x4000000000 0xFC00000000 (fun c => .ldb (c.extractLsb' 32 2) (c.extractLsb' 0 8)) ∧
  (∀ (c : CmdWord) (s : State), cmdOp c = 0x4 → 3 < (cmdSel c).toNat →
    ∃ t, acceptCommand c s = .next t ∧ FaultEntered s t .illegalCommand .extra (illegalEval c)) ∧
  (∀ (k : BitVec 2) (b : Byte) (s : State), ∃ t, exec (.ldb k b) s = .next t ∧
    (∀ j, t.memRead j = if j = k then b else s.memRead j) ∧ SameStatus s t ∧ Answered s t (okResponse 0)) ∧
  ∀ (ks : List (BitVec 2)) (b : BitVec 2 → Byte) (s : State), ks.Perm [0, 1, 2, 3] →
    ∃ t u, runInstrs (ks.map fun k => .ldb k (b k)) s = .next t ∧
      exec (.ldw (fromLeBytes (b 0) (b 1) (b 2) (b 3))) s = .next u ∧ SameFields u t ∧ SameStatus s t ∧
      t.responses = s.responses ++ List.replicate 4 (okResponse 0) ∧ t.inputs = s.inputs

/-- 10_state.md section 2, the lane table: which register bits each byte lane reads, and which LDB writes (derived by the spec
from R22). -/
def Obligations.LanesAliasTheRegisterBits : Prop :=
  (∀ s : State,
    s.memRead 0 = s.nframes.extractLsb' 0 4 ++ s.extra ∧
    s.memRead 1 = s.offx.extractLsb' 0 4 ++ s.atype ++ s.nframes.extractLsb' 4 2 ∧
    s.memRead 2 = s.offy.extractLsb' 0 4 ++ s.offx.extractLsb' 4 4 ∧
    s.memRead 3 = s.aspeed ++ s.offy.extractLsb' 4 4) ∧
  ∀ (b : Byte) (s t : State),
    (exec (.ldb 0 b) s = .next t → t.extra = b.extractLsb' 0 4 ∧
      t.nframes = s.nframes.extractLsb' 4 2 ++ b.extractLsb' 4 4 ∧
      t.atype = s.atype ∧ t.offx = s.offx ∧ t.offy = s.offy ∧ t.aspeed = s.aspeed) ∧
    (exec (.ldb 1 b) s = .next t → t.nframes = b.extractLsb' 0 2 ++ s.nframes.extractLsb' 0 4 ∧
      t.atype = b.extractLsb' 2 2 ∧ t.offx = s.offx.extractLsb' 4 4 ++ b.extractLsb' 4 4 ∧
      t.extra = s.extra ∧ t.offy = s.offy ∧ t.aspeed = s.aspeed) ∧
    (exec (.ldb 2 b) s = .next t → t.offx = b.extractLsb' 0 4 ++ s.offx.extractLsb' 0 4 ∧
      t.offy = s.offy.extractLsb' 4 4 ++ b.extractLsb' 4 4 ∧
      t.extra = s.extra ∧ t.nframes = s.nframes ∧ t.atype = s.atype ∧ t.aspeed = s.aspeed) ∧
    (exec (.ldb 3 b) s = .next t → t.offy = b.extractLsb' 0 4 ++ s.offy.extractLsb' 0 4 ∧
      t.aspeed = b.extractLsb' 4 4 ∧
      t.extra = s.extra ∧ t.nframes = s.nframes ∧ t.atype = s.atype ∧ t.offx = s.offx)

/-- 41_unpack_ops.md R112 to R117: each GETF answers its register, zero-extended or (OFFX, OFFY) sign-extended to 32 bits,
which is the extractor of the packed word; it changes nothing. -/
def Obligations.GetfReturnsTheExtractedField : Prop :=
  (RowDecodes 0x7000000000 0xFF00000000 (fun _ => .getfExtra) ∧
    RowDecodes 0x7100000000 0xFF00000000 (fun _ => .getfNframes) ∧
    RowDecodes 0x7200000000 0xFF00000000 (fun _ => .getfAtype) ∧
    RowDecodes 0x7300000000 0xFF00000000 (fun _ => .getfOffx) ∧
    RowDecodes 0x7400000000 0xFF00000000 (fun _ => .getfOffy) ∧
    RowDecodes 0x7500000000 0xFF00000000 (fun _ => .getfAspeed)) ∧
  ∀ s : State,
    (ReadsAs .getfExtra s (s.extra.setWidth 32) ∧ s.extra.setWidth 32 = BitVec.ofInt 32 (extExtra s.word)) ∧
    (ReadsAs .getfNframes s (s.nframes.setWidth 32) ∧ s.nframes.setWidth 32 = BitVec.ofInt 32 (extNframes s.word)) ∧
    (ReadsAs .getfAtype s (s.atype.setWidth 32) ∧ s.atype.setWidth 32 = BitVec.ofInt 32 (extAtype s.word)) ∧
    (ReadsAs .getfOffx s (s.offx.signExtend 32) ∧ s.offx.signExtend 32 = BitVec.ofInt 32 (extOffx s.word)) ∧
    (ReadsAs .getfOffy s (s.offy.signExtend 32) ∧ s.offy.signExtend 32 = BitVec.ofInt 32 (extOffy s.word)) ∧
    (ReadsAs .getfAspeed s (s.aspeed.setWidth 32) ∧ s.aspeed.setWidth 32 = BitVec.ofInt 32 (extAspeed s.word))

/-- 41_unpack_ops.md (GETAT) and 40_field_functions.md section 6: GETAT answers the code of the AnimationType ATYPE selects
(R118's pseudocode) and changes nothing. That the answer is F[2] zero-extended, GETF.ATYPE's answer, and never 0xFFFFFFFF is
the spec's own inference, the sentence of R118 marked derived from R97 ("Since F[2] has two bits, ..."). -/
def Obligations.GetatReturnsTheAnimationType : Prop :=
  RowDecodes 0x8000000000 0xF000000000 (fun _ => .getat) ∧
  ∀ s : State, ReadsAs .getat s (BitVec.ofInt 32 (atypeDecode (s.atype.toNat : Int))) ∧
    ReadsAs .getat s (s.atype.setWidth 32) ∧ ¬ ReadsAs .getat s 0xFFFFFFFF

/-! ### Pack-direction commands -/

/-- 42_pack_ops.md R130 to R135: a SETF whose value is in its field's bounds stores it (the word gets the insert lane in the
field's place, every other register and the record stay); any other value raises RangeError and stores nothing. -/
def Obligations.SetfStoresOrRaisesRangeError : Prop :=
  (RowDecodes 0x6000000000 0xFF00000000 (fun c => .setfExtra (cmdData c)) ∧
    RowDecodes 0x6100000000 0xFF00000000 (fun c => .setfNframes (cmdData c)) ∧
    RowDecodes 0x6200000000 0xFF00000000 (fun c => .setfAtype (cmdData c)) ∧
    RowDecodes 0x6300000000 0xFF00000000 (fun c => .setfOffx (cmdData c)) ∧
    RowDecodes 0x6400000000 0xFF00000000 (fun c => .setfOffy (cmdData c)) ∧
    RowDecodes 0x6500000000 0xFF00000000 (fun c => .setfAspeed (cmdData c))) ∧
  (∀ (i : FieldIdx) (v : Word) (s : State), Accepts i v.toInt → ∃ t, exec (.setf i v) s = .next t ∧
    t.val i = v.toInt ∧ SameFieldsBut i s t ∧
    t.word = (s.word &&& ~~~(maskInPlace (fieldSpec i))) ||| lane v.toInt (fieldSpec i) ∧
    SameStatus s t ∧ Answered s t (okResponse 0)) ∧
  ∀ (i : FieldIdx) (v : Word) (s : State), ¬ Accepts i v.toInt →
    ∃ t, exec (.setf i v) s = .next t ∧ FaultEntered s t .rangeError i v

/-- 42_pack_ops.md (STW) and 40_field_functions.md section 8: STW answers the concatenation of the six registers (R136's
pseudocode), whether or not a fault is recorded, and changes nothing. That this is pack of the six field values is the spec's
own inference, the sentence of R136 marked derived from R22, and that STW after LDW w answers w rests on R101, also marked
derived. -/
def Obligations.StwPacksTheFields : Prop :=
  RowDecodes 0x3000000000 0xF000000000 (fun _ => .stw) ∧
  (∀ s : State, ReadsAs .stw s (s.aspeed ++ s.offy ++ s.offx ++ s.atype ++ s.nframes ++ s.extra) ∧
    ReadsAs .stw s
      (pack (s.val .extra) (s.val .nframes) (s.val .atype) (s.val .offx) (s.val .offy) (s.val .aspeed))) ∧
  ∀ (w : Word) (s : State), ∃ t, exec (.ldw w) s = .next t ∧ ReadsAs .stw t w

/-- 42_pack_ops.md R137: STB answers its byte lane zero-extended, the four lanes being le_bytes of the word; a selector of 4
to 15 raises IllegalCommand. -/
def Obligations.StbReturnsOneByteLane : Prop :=
  RowDecodes 0x5000000000 0xFC00000000 (fun c => .stb (c.extractLsb' 32 2)) ∧
  (∀ (c : CmdWord) (s : State), cmdOp c = 0x5 → 3 < (cmdSel c).toNat →
    ∃ t, acceptCommand c s = .next t ∧ FaultEntered s t .illegalCommand .extra (illegalEval c)) ∧
  (∀ (k : BitVec 2) (s : State), ReadsAs (.stb k) s ((s.word.extractLsb' (8 * k.toNat) 8).setWidth 32)) ∧
  ∀ s : State, ∃ t, runInstrs [.stb 0, .stb 1, .stb 2, .stb 3] s = .next t ∧
    t.responses = s.responses ++
      [okResponse ((leBytes s.word).1.setWidth 32), okResponse ((leBytes s.word).2.1.setWidth 32),
        okResponse ((leBytes s.word).2.2.1.setWidth 32), okResponse ((leBytes s.word).2.2.2.setWidth 32)]

/-! ### System commands -/

/-- 43_system_ops.md R150: NOP answers 0 and changes nothing; in particular it does not clear ERR (decision D5). -/
def Obligations.NopChangesNothing : Prop :=
  RowDecodes 0x0000000000 0xF000000000 (fun _ => .nop) ∧ ∀ s : State, ReadsAs .nop s 0

/-- 43_system_ops.md R151: CLR answers 0 and leaves every register and the record as reset does, and no other command returns
ERR to 0 (decision D10). -/
def Obligations.ClrLeavesTheResetState : Prop :=
  RowDecodes 0x1000000000 0xF000000000 (fun _ => .clr) ∧
  (∀ s : State, ∃ t, exec .clr s = .next t ∧ SameFields State.reset t ∧ SameStatus State.reset t ∧
    Answered s t (okResponse 0)) ∧
  ∀ (i : Instr) (s t : State), exec i s = .next t → s.err = true → t.err = false → i = .clr

/-- 43_system_ops.md R152 to R155: the four RDST answer STATUS, EVAL, EMIN and EMAX and change nothing; under the record's
invariant STATUS takes only the listed values. -/
def Obligations.RdstReadsTheRecord : Prop :=
  (RowDecodes 0x9000000000 0xFF00000000 (fun _ => .rdstStatus) ∧
    RowDecodes 0x9100000000 0xFF00000000 (fun _ => .rdstEval) ∧
    RowDecodes 0x9200000000 0xFF00000000 (fun _ => .rdstEmin) ∧
    RowDecodes 0x9300000000 0xFF00000000 (fun _ => .rdstEmax)) ∧
  (∀ s : State,
    ReadsAs .rdstStatus s
      (BitVec.ofNat 32 (s.err.toNat + 2 * (causeCode s.ecode).toNat + 16 * (fieldIndex s.efield).toNat)) ∧
    ReadsAs .rdstEval s s.eval ∧
    ReadsAs .rdstEmin s (if s.ecode = .rangeError then BitVec.ofInt 32 (acceptLow s.efield) else 0) ∧
    ReadsAs .rdstEmax s (if s.ecode = .rangeError then BitVec.ofInt 32 (acceptHigh s.efield) else 0)) ∧
  ∀ s : State, RecordOk s →
    (s.err = false ∧ ReadsAs .rdstStatus s 0) ∨ (s.ecode = .illegalCommand ∧ ReadsAs .rdstStatus s 5) ∨
    (s.ecode = .rangeError ∧ ReadsAs .rdstStatus s (3 + ((fieldIndex s.efield).setWidth 32 <<< 4)))

/-- 43_system_ops.md R156 to R161: the six RDSPEC answer the layout constants and change nothing. -/
def Obligations.RdspecReturnsTheLayout : Prop :=
  (RowDecodes 0xA000000000 0xFF00000000 (fun _ => .rdspecExtra) ∧
    RowDecodes 0xA100000000 0xFF00000000 (fun _ => .rdspecNframes) ∧
    RowDecodes 0xA200000000 0xFF00000000 (fun _ => .rdspecAtype) ∧
    RowDecodes 0xA300000000 0xFF00000000 (fun _ => .rdspecOffx) ∧
    RowDecodes 0xA400000000 0xFF00000000 (fun _ => .rdspecOffy) ∧
    RowDecodes 0xA500000000 0xFF00000000 (fun _ => .rdspecAspeed)) ∧
  ∀ s : State, ReadsAs .rdspecExtra s 0x00000004 ∧ ReadsAs .rdspecNframes s 0x00000406 ∧
    ReadsAs .rdspecAtype s 0x00000A02 ∧ ReadsAs .rdspecOffx s 0x00000C88 ∧
    ReadsAs .rdspecOffy s 0x00001488 ∧ ReadsAs .rdspecAspeed s 0x00001C04

/-! ### Field functions -/

/-- 40_field_functions.md R80: for every well-formed spec the extractor is the two's-complement or unsigned reading of the
field's bits, lies in [min, max], and depends on no other bit of the word. -/
def Obligations.UnpackReadsTheFieldsBits : Prop :=
  ∀ (sp : FieldSpec) (w : Word), sp.wellFormed = true →
    unpack w sp =
      (if sp.signed then (w.extractLsb' sp.bitOffset sp.bitSize).toInt
        else ((w.extractLsb' sp.bitOffset sp.bitSize).toNat : Int)) ∧
    specMin sp ≤ unpack w sp ∧ unpack w sp ≤ specMax sp ∧
    ∀ w' : Word, w'.extractLsb' sp.bitOffset sp.bitSize = w.extractLsb' sp.bitOffset sp.bitSize →
      unpack w' sp = unpack w sp

/-- 40_field_functions.md R81 to R86: the six fixed extractors are the readings of their slices of the word, signed for OFFX
and OFFY and unsigned for the others, and the shift-and-mask formulas, with the sign decode for OFFX and OFFY only; and they
are unpack with their rows of SPECS. -/
def Obligations.FixedExtractorsAreTheFormulas : Prop :=
  ∀ w : Word,
    (extExtra w = ((w.extractLsb' 0 4).toNat : Int) ∧
      extExtra w = (((w >>> 0) &&& 0xF).toNat : Int) ∧ extExtra w = unpack w (fieldSpec .extra)) ∧
    (extNframes w = ((w.extractLsb' 4 6).toNat : Int) ∧
      extNframes w = (((w >>> 4) &&& 0x3F).toNat : Int) ∧ extNframes w = unpack w (fieldSpec .nframes)) ∧
    (extAtype w = ((w.extractLsb' 10 2).toNat : Int) ∧
      extAtype w = (((w >>> 10) &&& 0x3).toNat : Int) ∧ extAtype w = unpack w (fieldSpec .atype)) ∧
    (extOffx w = (w.extractLsb' 12 8).toInt ∧
      extOffx w = (if (w >>> 12) &&& 0x80 ≠ 0 then (((w >>> 12) &&& 0xFF).toNat : Int) - 256
        else (((w >>> 12) &&& 0xFF).toNat : Int)) ∧ extOffx w = unpack w (fieldSpec .offx)) ∧
    (extOffy w = (w.extractLsb' 20 8).toInt ∧
      extOffy w = (if (w >>> 20) &&& 0x80 ≠ 0 then (((w >>> 20) &&& 0xFF).toNat : Int) - 256
        else (((w >>> 20) &&& 0xFF).toNat : Int)) ∧ extOffy w = unpack w (fieldSpec .offy)) ∧
    (extAspeed w = ((w.extractLsb' 28 4).toNat : Int) ∧
      extAspeed w = (((w >>> 28) &&& 0xF).toNat : Int) ∧ extAspeed w = unpack w (fieldSpec .aspeed))

/-- 40_field_functions.md R87: for every well-formed spec the insert lane holds the value's two's-complement truncation in the
field's bits and zero elsewhere; on a port value it is the low bitSize bits of the data. -/
def Obligations.LaneHoldsTheTruncatedValue : Prop :=
  ∀ (sp : FieldSpec) (v : Int), sp.wellFormed = true →
    (lane v sp).extractLsb' sp.bitOffset sp.bitSize = BitVec.ofInt sp.bitSize v ∧
    lane v sp &&& ~~~(maskInPlace sp) = 0 ∧
    ∀ d : Word, (lane d.toInt sp).extractLsb' sp.bitOffset sp.bitSize = d.extractLsb' 0 sp.bitSize

/-- 40_field_functions.md R88 to R93: the six fixed lanes put the value's truncation in their field's bits, zero elsewhere,
and are lane with their rows of SPECS. -/
def Obligations.FixedLanesAreTheFormulas : Prop :=
  ∀ v : Int,
    (laneExtra v = lane v (fieldSpec .extra) ∧ (laneExtra v).extractLsb' 0 4 = BitVec.ofInt 4 v ∧
      laneExtra v &&& 0xFFFFFFF0 = 0) ∧
    (laneNframes v = lane v (fieldSpec .nframes) ∧ (laneNframes v).extractLsb' 4 6 = BitVec.ofInt 6 v ∧
      laneNframes v &&& 0xFFFFFC0F = 0) ∧
    (laneAtype v = lane v (fieldSpec .atype) ∧ (laneAtype v).extractLsb' 10 2 = BitVec.ofInt 2 v ∧
      laneAtype v &&& 0xFFFFF3FF = 0) ∧
    (laneOffx v = lane v (fieldSpec .offx) ∧ (laneOffx v).extractLsb' 12 8 = BitVec.ofInt 8 v ∧
      laneOffx v &&& 0xFFF00FFF = 0) ∧
    (laneOffy v = lane v (fieldSpec .offy) ∧ (laneOffy v).extractLsb' 20 8 = BitVec.ofInt 8 v ∧
      laneOffy v &&& 0xF00FFFFF = 0) ∧
    (laneAspeed v = lane v (fieldSpec .aspeed) ∧ (laneAspeed v).extractLsb' 28 4 = BitVec.ofInt 4 v ∧
      laneAspeed v &&& 0x0FFFFFFF = 0)

/-- 40_field_functions.md R94: the merge is the OR, the sum and the concatenation of the six truncated values, and the word
unpacks to the arguments exactly when all six are in range. -/
def Obligations.PackIsTheMergeOfTheLanes : Prop :=
  ∀ e n t x y s : Int,
    pack e n t x y s =
      lane e (fieldSpec .extra) ||| lane n (fieldSpec .nframes) ||| lane t (fieldSpec .atype) |||
        lane x (fieldSpec .offx) ||| lane y (fieldSpec .offy) ||| lane s (fieldSpec .aspeed) ∧
    pack e n t x y s =
      laneExtra e + laneNframes n + laneAtype t + laneOffx x + laneOffy y + laneAspeed s ∧
    pack e n t x y s =
      BitVec.ofInt 4 s ++ BitVec.ofInt 8 y ++ BitVec.ofInt 8 x ++ BitVec.ofInt 2 t ++ BitVec.ofInt 6 n ++
        BitVec.ofInt 4 e ∧
    ((extExtra (pack e n t x y s) = e ∧ extNframes (pack e n t x y s) = n ∧ extAtype (pack e n t x y s) = t ∧
        extOffx (pack e n t x y s) = x ∧ extOffy (pack e n t x y s) = y ∧ extAspeed (pack e n t x y s) = s) ↔
      (Accepts .extra e ∧ Accepts .nframes n ∧ Accepts .atype t ∧ Accepts .offx x ∧ Accepts .offy y ∧
        Accepts .aspeed s))

/-- 40_field_functions.md R100: for integers that pass their range checks the six extractors of pack return them. -/
def Obligations.ValuesRoundTripThroughTheWord : Prop :=
  ∀ e n t x y s : Int,
    inRange e (fieldSpec .extra) = true → inRange n (fieldSpec .nframes) = true → inRange t (fieldSpec .atype) = true →
    inRange x (fieldSpec .offx) = true → inRange y (fieldSpec .offy) = true → inRange s (fieldSpec .aspeed) = true →
    extExtra (pack e n t x y s) = e ∧ extNframes (pack e n t x y s) = n ∧ extAtype (pack e n t x y s) = t ∧
    extOffx (pack e n t x y s) = x ∧ extOffy (pack e n t x y s) = y ∧ extAspeed (pack e n t x y s) = s

/-- 40_field_functions.md section 8 (R101, derived by the spec): every word is the pack of its own six fields. -/
def Obligations.WordsRoundTripThroughTheValues : Prop :=
  ∀ w : Word, pack (extExtra w) (extNframes w) (extAtype w) (extOffx w) (extOffy w) (extAspeed w) = w

/-- 40_field_functions.md section 8 (R102) and 10_state.md section 2 (R24), both derived by the spec: every field of every
word is in range, and every register's value is, in every state; no state can hold another. -/
def Obligations.EveryFieldValueIsInRange : Prop :=
  (∀ (w : Word) (i : FieldIdx), inRange (unpack w (fieldSpec i)) (fieldSpec i) = true ∧
    Accepts i (unpack w (fieldSpec i))) ∧
  ∀ (s : State) (i : FieldIdx), Accepts i (s.val i)

/-- 10_state.md R21: the value of a field is the signed reading of OFFX and OFFY and the unsigned reading of the other four,
lies in its field's bounds, and is the document's unpack result on the packed word. -/
def Obligations.FieldValueIsTheUnpackResult : Prop :=
  ∀ s : State,
    (s.val .extra = (s.extra.toNat : Int) ∧ s.val .nframes = (s.nframes.toNat : Int) ∧
      s.val .atype = (s.atype.toNat : Int) ∧ s.val .offx = s.offx.toInt ∧ s.val .offy = s.offy.toInt ∧
      s.val .aspeed = (s.aspeed.toNat : Int)) ∧
    ∀ i : FieldIdx, s.val i = unpack s.word (fieldSpec i) ∧ Accepts i (s.val i)

/-- 40_field_functions.md section 8 (R104, derived by the spec): in-range records are equal exactly when their words are. -/
def Obligations.PackIsInjectiveInRange : Prop :=
  ∀ e n t x y s e' n' t' x' y' s' : Int,
    (Accepts .extra e ∧ Accepts .nframes n ∧ Accepts .atype t ∧ Accepts .offx x ∧ Accepts .offy y ∧ Accepts .aspeed s) →
    (Accepts .extra e' ∧ Accepts .nframes n' ∧ Accepts .atype t' ∧ Accepts .offx x' ∧ Accepts .offy y' ∧
      Accepts .aspeed s') →
    (pack e n t x y s = pack e' n' t' x' y' s' ↔
      e = e' ∧ n = n' ∧ t = t' ∧ x = x' ∧ y = y' ∧ s = s')

/-- 40_field_functions.md section 5 (R96, derived by the spec): the range check of each field is the bit-level test on the
32-bit data. -/
def Obligations.RangeCheckIsTheBitTest : Prop :=
  ∀ d : Word,
    (inRange (portValue d) (fieldSpec .extra) = true ↔ d.extractLsb' 4 28 = 0) ∧
    (inRange (portValue d) (fieldSpec .nframes) = true ↔ d.extractLsb' 6 26 = 0) ∧
    (inRange (portValue d) (fieldSpec .atype) = true ↔ d.extractLsb' 2 30 = 0) ∧
    (inRange (portValue d) (fieldSpec .offx) = true ↔
      d.extractLsb' 7 25 = 0 ∨ d.extractLsb' 7 25 = BitVec.allOnes 25) ∧
    (inRange (portValue d) (fieldSpec .offy) = true ↔
      d.extractLsb' 7 25 = 0 ∨ d.extractLsb' 7 25 = BitVec.allOnes 25) ∧
    (inRange (portValue d) (fieldSpec .aspeed) = true ↔ d.extractLsb' 4 28 = 0)

/-- 40_field_functions.md section 6: atype_decode is the identity on 0 to 3 and -1 on every other integer (R97). That it is
never -1 on the ATYPE field of a word is the spec's own inference, the sentence of R97 marked derived from R83 ("Applied to
the ATYPE field ..."). -/
def Obligations.AtypeDecodeMapsTheClosedSet : Prop :=
  (∀ n : Int, (0 ≤ n ∧ n ≤ 3 → atypeDecode n = n) ∧ (n < 0 ∨ 3 < n → atypeDecode n = -1)) ∧
  ∀ w : Word, atypeDecode (extAtype w) = extAtype w ∧ atypeDecode (extAtype w) ≠ -1

/-- 40_field_functions.md R98, R99: le_bytes is the four bytes in stream order, and from_le_bytes is its inverse both ways. -/
def Obligations.LittleEndianMapsAreInverse : Prop :=
  (∀ w : Word, leBytes w = (byteOf w 0, byteOf w 1, byteOf w 2, byteOf w 3) ∧
    fromLeBytes (leBytes w).1 (leBytes w).2.1 (leBytes w).2.2.1 (leBytes w).2.2.2 = w) ∧
  ∀ b0 b1 b2 b3 : Byte, leBytes (fromLeBytes b0 b1 b2 b3) = (b0, b1, b2, b3)

/-- 00_scope.md section 3 and 40_field_functions.md section 8: for ANY spec table the well-formedness check accepts, the
generic codec round-trips both ways; and the six fixed rows, and the configuration they stand in, are accepted and give pack
(decision D22). That the check asks the exact partition of a table of any length is the model's choice, log 15. -/
def Obligations.AcceptedTablesRoundTrip : Prop :=
  (∀ t : SpecTable, SpecTable.wellFormed t = true →
    (∀ w : Word, packTable t (unpackTable t w) = w) ∧
    ∀ vs : List Int, List.Forall₂ (fun sp v => inRange v sp = true) t vs → unpackTable t (packTable t vs) = vs) ∧
  SpecTable.wellFormed Config.bfc32.specs = true ∧ Config.wellFormed Config.bfc32 = true ∧
  ∀ e n t x y s : Int, packTable Config.bfc32.specs [e, n, t, x, y, s] = pack e n t x y s

/-! ### What the host gets from command sequences -/

/-- 30_encoding.md section 6: UNPACK answers 0 and then the six extracted values, LDW4 loads the little-endian word, and STW4
answers le_bytes of the word. -/
def Obligations.StreamPseudoInstructionsTransferTheWord : Prop :=
  (∀ (w : Word) (s : State), ∃ t, runInstrs (expand (.unpack w)) s = .next t ∧ t.word = w ∧ SameStatus s t ∧
    t.responses = s.responses ++
      [okResponse 0, okResponse (BitVec.ofInt 32 (extExtra w)), okResponse (BitVec.ofInt 32 (extNframes w)),
        okResponse (BitVec.ofInt 32 (extAtype w)), okResponse (BitVec.ofInt 32 (extOffx w)),
        okResponse (BitVec.ofInt 32 (extOffy w)), okResponse (BitVec.ofInt 32 (extAspeed w))]) ∧
  (∀ (b0 b1 b2 b3 : Byte) (s : State), ∃ t, runInstrs (expand (.ldw4 b0 b1 b2 b3)) s = .next t ∧
    t.word = fromLeBytes b0 b1 b2 b3 ∧ SameStatus s t ∧
    t.responses = s.responses ++ List.replicate 4 (okResponse 0)) ∧
  ∀ s : State, ∃ t, runInstrs (expand .stw4) s = .next t ∧ SameFields s t ∧ SameStatus s t ∧
    t.responses = s.responses ++
      [okResponse ((byteOf s.word 0).setWidth 32), okResponse ((byteOf s.word 1).setWidth 32),
        okResponse ((byteOf s.word 2).setWidth 32), okResponse ((byteOf s.word 3).setWidth 32)]

/-- 30_encoding.md section 6 and 60_exceptions.md section 3: PACK6 of six in-range values answers their pack and records
nothing; and, if no fault was recorded before and some value is out of range, the record is the RangeError of the lowest
failing index, whatever the later values are (decision D23). -/
def Obligations.Pack6PacksOrRecordsTheLowestField : Prop :=
  (∀ (v : FieldIdx → Int) (s : State), (∀ i, Accepts i (v i)) →
    ∃ t, runInstrs (expand (.pack6 (v .extra) (v .nframes) (v .atype) (v .offx) (v .offy) (v .aspeed))) s = .next t ∧
      (∀ i, t.val i = v i) ∧ SameStatus s t ∧
      t.responses = s.responses ++ List.replicate 6 (okResponse 0) ++
        [okResponse (pack (v .extra) (v .nframes) (v .atype) (v .offx) (v .offy) (v .aspeed))]) ∧
  ∀ (v : FieldIdx → Int) (s : State) (i : FieldIdx), s.err = false →
    (∀ j, -2147483648 ≤ v j ∧ v j ≤ 2147483647) →
    (∀ j, (fieldIndex j).toNat < (fieldIndex i).toNat → Accepts j (v j)) → ¬ Accepts i (v i) →
    ∃ t, runInstrs (expand (.pack6 (v .extra) (v .nframes) (v .atype) (v .offx) (v .offy) (v .aspeed))) s = .next t ∧
      t.err = true ∧ t.ecode = .rangeError ∧ t.efield = i ∧ t.eval.toInt = v i ∧
      ∃ r ∈ t.responses.drop s.responses.length, r.err = true
end

