-- ==== Sys2Proof/Laws/Decode.lean ====
section
/-! SUPPORT. The fields of a command word, and what the decoder answers on a word given by its fields. -/

namespace Sys2Proof

@[simp] theorem cmdOp_cmdWord (op sel : BitVec 4) (d : Word) : cmdOp (cmdWord op sel d) = op := by
  apply BitVec.eq_of_getLsbD_eq
  intro k hk
  simp only [cmdOp, cmdWord, BitVec.getLsbD_extractLsb', BitVec.getLsbD_append, hk]
  rw [if_neg (by omega), if_neg (by omega)]
  simp [show 36 + k - 32 - 4 = k by omega]

@[simp] theorem cmdSel_cmdWord (op sel : BitVec 4) (d : Word) : cmdSel (cmdWord op sel d) = sel := by
  apply BitVec.eq_of_getLsbD_eq
  intro k hk
  simp only [cmdSel, cmdWord, BitVec.getLsbD_extractLsb', BitVec.getLsbD_append, hk]
  simp [hk]

@[simp] theorem cmdData_cmdWord (op sel : BitVec 4) (d : Word) : cmdData (cmdWord op sel d) = d := by
  apply BitVec.eq_of_getLsbD_eq
  intro k hk
  simp only [cmdData, cmdWord, BitVec.getLsbD_extractLsb', BitVec.getLsbD_append, hk]
  simp [hk]

/-- A command word is its three fields. -/
theorem cmdWord_fields (c : CmdWord) : cmdWord (cmdOp c) (cmdSel c) (cmdData c) = c := by
  apply BitVec.eq_of_getLsbD_eq
  intro k hk
  have hk : k < 40 := hk
  simp only [cmdWord, cmdOp, cmdSel, cmdData, BitVec.getLsbD_append, BitVec.getLsbD_extractLsb']
  split
  · simp [*]
  · split
    · simp [*, show 32 + (k - 32) = k by omega]
    · simp [show k - 32 - 4 < 4 by omega, show 36 + (k - 32 - 4) = k by omega]

end Sys2Proof
end

