-- ==== Sys2Proof/Laws/State.lean ====
section
/-! SUPPORT. What each update of the state leaves in each field: one lemma per field per update, true by rfl. -/

namespace Sys2Proof.Machine

variable (s : State)

/-! ### State.setWord -/

@[simp] theorem State.setWord_extra (v : Word) : (s.setWord v).extra = v.extractLsb' 0 4 := rfl
@[simp] theorem State.setWord_nframes (v : Word) : (s.setWord v).nframes = v.extractLsb' 4 6 := rfl
@[simp] theorem State.setWord_atype (v : Word) : (s.setWord v).atype = v.extractLsb' 10 2 := rfl
@[simp] theorem State.setWord_offx (v : Word) : (s.setWord v).offx = v.extractLsb' 12 8 := rfl
@[simp] theorem State.setWord_offy (v : Word) : (s.setWord v).offy = v.extractLsb' 20 8 := rfl
@[simp] theorem State.setWord_aspeed (v : Word) : (s.setWord v).aspeed = v.extractLsb' 28 4 := rfl
@[simp] theorem State.setWord_err (v : Word) : (s.setWord v).err = s.err := rfl
@[simp] theorem State.setWord_ecode (v : Word) : (s.setWord v).ecode = s.ecode := rfl
@[simp] theorem State.setWord_efield (v : Word) : (s.setWord v).efield = s.efield := rfl
@[simp] theorem State.setWord_eval (v : Word) : (s.setWord v).eval = s.eval := rfl
@[simp] theorem State.setWord_inputs (v : Word) : (s.setWord v).inputs = s.inputs := rfl
@[simp] theorem State.setWord_responses (v : Word) : (s.setWord v).responses = s.responses := rfl

/-! ### State.answer -/

@[simp] theorem State.answer_extra (r : Response) : (s.answer r).extra = s.extra := rfl
@[simp] theorem State.answer_nframes (r : Response) : (s.answer r).nframes = s.nframes := rfl
@[simp] theorem State.answer_atype (r : Response) : (s.answer r).atype = s.atype := rfl
@[simp] theorem State.answer_offx (r : Response) : (s.answer r).offx = s.offx := rfl
@[simp] theorem State.answer_offy (r : Response) : (s.answer r).offy = s.offy := rfl
@[simp] theorem State.answer_aspeed (r : Response) : (s.answer r).aspeed = s.aspeed := rfl
@[simp] theorem State.answer_err (r : Response) : (s.answer r).err = s.err := rfl
@[simp] theorem State.answer_ecode (r : Response) : (s.answer r).ecode = s.ecode := rfl
@[simp] theorem State.answer_efield (r : Response) : (s.answer r).efield = s.efield := rfl
@[simp] theorem State.answer_eval (r : Response) : (s.answer r).eval = s.eval := rfl
@[simp] theorem State.answer_inputs (r : Response) : (s.answer r).inputs = s.inputs := rfl
@[simp] theorem State.answer_responses (r : Response) : (s.answer r).responses = s.responses ++ [r] := rfl

/-! ### State.respond -/

@[simp] theorem State.respond_extra (d : Word) : (s.respond d).extra = s.extra := rfl
@[simp] theorem State.respond_nframes (d : Word) : (s.respond d).nframes = s.nframes := rfl
@[simp] theorem State.respond_atype (d : Word) : (s.respond d).atype = s.atype := rfl
@[simp] theorem State.respond_offx (d : Word) : (s.respond d).offx = s.offx := rfl
@[simp] theorem State.respond_offy (d : Word) : (s.respond d).offy = s.offy := rfl
@[simp] theorem State.respond_aspeed (d : Word) : (s.respond d).aspeed = s.aspeed := rfl
@[simp] theorem State.respond_err (d : Word) : (s.respond d).err = s.err := rfl
@[simp] theorem State.respond_ecode (d : Word) : (s.respond d).ecode = s.ecode := rfl
@[simp] theorem State.respond_efield (d : Word) : (s.respond d).efield = s.efield := rfl
@[simp] theorem State.respond_eval (d : Word) : (s.respond d).eval = s.eval := rfl
@[simp] theorem State.respond_inputs (d : Word) : (s.respond d).inputs = s.inputs := rfl
@[simp] theorem State.respond_responses (d : Word) : (s.respond d).responses = s.responses ++ [okResponse d] := rfl

/-! ### State.withInputs -/

@[simp] theorem State.withInputs_extra (l : List HostInput) : (s.withInputs l).extra = s.extra := rfl
@[simp] theorem State.withInputs_nframes (l : List HostInput) : (s.withInputs l).nframes = s.nframes := rfl
@[simp] theorem State.withInputs_atype (l : List HostInput) : (s.withInputs l).atype = s.atype := rfl
@[simp] theorem State.withInputs_offx (l : List HostInput) : (s.withInputs l).offx = s.offx := rfl
@[simp] theorem State.withInputs_offy (l : List HostInput) : (s.withInputs l).offy = s.offy := rfl
@[simp] theorem State.withInputs_aspeed (l : List HostInput) : (s.withInputs l).aspeed = s.aspeed := rfl
@[simp] theorem State.withInputs_err (l : List HostInput) : (s.withInputs l).err = s.err := rfl
@[simp] theorem State.withInputs_ecode (l : List HostInput) : (s.withInputs l).ecode = s.ecode := rfl
@[simp] theorem State.withInputs_efield (l : List HostInput) : (s.withInputs l).efield = s.efield := rfl
@[simp] theorem State.withInputs_eval (l : List HostInput) : (s.withInputs l).eval = s.eval := rfl
@[simp] theorem State.withInputs_inputs (l : List HostInput) : (s.withInputs l).inputs = l := rfl
@[simp] theorem State.withInputs_responses (l : List HostInput) : (s.withInputs l).responses = s.responses := rfl

/-! ### State.present -/

@[simp] theorem State.present_extra (x : HostInput) : (s.present x).extra = s.extra := rfl
@[simp] theorem State.present_nframes (x : HostInput) : (s.present x).nframes = s.nframes := rfl
@[simp] theorem State.present_atype (x : HostInput) : (s.present x).atype = s.atype := rfl
@[simp] theorem State.present_offx (x : HostInput) : (s.present x).offx = s.offx := rfl
@[simp] theorem State.present_offy (x : HostInput) : (s.present x).offy = s.offy := rfl
@[simp] theorem State.present_aspeed (x : HostInput) : (s.present x).aspeed = s.aspeed := rfl
@[simp] theorem State.present_err (x : HostInput) : (s.present x).err = s.err := rfl
@[simp] theorem State.present_ecode (x : HostInput) : (s.present x).ecode = s.ecode := rfl
@[simp] theorem State.present_efield (x : HostInput) : (s.present x).efield = s.efield := rfl
@[simp] theorem State.present_eval (x : HostInput) : (s.present x).eval = s.eval := rfl
@[simp] theorem State.present_inputs (x : HostInput) : (s.present x).inputs = x :: s.inputs := rfl
@[simp] theorem State.present_responses (x : HostInput) : (s.present x).responses = s.responses := rfl

/-! ### State.issue -/

@[simp] theorem State.issue_extra (l : List Instr) : (s.issue l).extra = s.extra := rfl
@[simp] theorem State.issue_nframes (l : List Instr) : (s.issue l).nframes = s.nframes := rfl
@[simp] theorem State.issue_atype (l : List Instr) : (s.issue l).atype = s.atype := rfl
@[simp] theorem State.issue_offx (l : List Instr) : (s.issue l).offx = s.offx := rfl
@[simp] theorem State.issue_offy (l : List Instr) : (s.issue l).offy = s.offy := rfl
@[simp] theorem State.issue_aspeed (l : List Instr) : (s.issue l).aspeed = s.aspeed := rfl
@[simp] theorem State.issue_err (l : List Instr) : (s.issue l).err = s.err := rfl
@[simp] theorem State.issue_ecode (l : List Instr) : (s.issue l).ecode = s.ecode := rfl
@[simp] theorem State.issue_efield (l : List Instr) : (s.issue l).efield = s.efield := rfl
@[simp] theorem State.issue_eval (l : List Instr) : (s.issue l).eval = s.eval := rfl
@[simp] theorem State.issue_inputs (l : List Instr) : (s.issue l).inputs = s.inputs ++ l.map fun i => .command (encode i) := rfl
@[simp] theorem State.issue_responses (l : List Instr) : (s.issue l).responses = s.responses := rfl

/-! ### State.clear -/

@[simp] theorem State.clear_extra : (s.clear).extra = 0 := rfl
@[simp] theorem State.clear_nframes : (s.clear).nframes = 0 := rfl
@[simp] theorem State.clear_atype : (s.clear).atype = 0 := rfl
@[simp] theorem State.clear_offx : (s.clear).offx = 0 := rfl
@[simp] theorem State.clear_offy : (s.clear).offy = 0 := rfl
@[simp] theorem State.clear_aspeed : (s.clear).aspeed = 0 := rfl
@[simp] theorem State.clear_err : (s.clear).err = false := rfl
@[simp] theorem State.clear_ecode : (s.clear).ecode = .none := rfl
@[simp] theorem State.clear_efield : (s.clear).efield = .extra := rfl
@[simp] theorem State.clear_eval : (s.clear).eval = 0 := rfl
@[simp] theorem State.clear_inputs : (s.clear).inputs = s.inputs := rfl
@[simp] theorem State.clear_responses : (s.clear).responses = s.responses := rfl

@[simp] theorem State.applyReset_eq_clear : s.applyReset = s.clear := rfl
@[simp] theorem State.idle_eq : s.idle = s := rfl
@[simp] theorem State.errO_eq : s.errO = s.err := rfl
@[simp] theorem State.evalReg_eq : s.evalReg = s.eval := rfl

/-! ### Operations that change no register the packed word reads -/

@[simp] theorem State.word_respond (d : Word) : (s.respond d).word = s.word := rfl
@[simp] theorem State.word_answer (r : Response) : (s.answer r).word = s.word := rfl
@[simp] theorem State.word_withInputs (l : List HostInput) : (s.withInputs l).word = s.word := rfl
@[simp] theorem State.withInputs_withInputs (l m : List HostInput) : (s.withInputs l).withInputs m = s.withInputs m := rfl
@[simp] theorem State.withInputs_self : s.withInputs s.inputs = s := rfl

/-- Presenting an input and taking it again leaves the state as it was. -/
@[simp] theorem State.present_withInputs (x : HostInput) : (s.present x).withInputs s.inputs = s := rfl

end Sys2Proof.Machine
end

