-- ==== Sys2Proof/Laws/Ops.lean ====
section
/-! SUPPORT. For each shared operation, what it can do, said once; the laws of the packed word and of the byte lanes; and the
inversion of exec. -/

namespace Sys2Proof.Machine

/-! ### The packed word and its registers (10_state.md R22) -/

/-- W of the fixed table is the concatenation the spec writes, F[5] highest (10_state.md R22). -/
theorem State.word_eq_append (s : State) :
    s.word = s.aspeed ++ s.offy ++ s.offx ++ s.atype ++ s.nframes ++ s.extra := by
  apply BitVec.eq_of_getLsbD_eq
  intro k hk
  have hk : k < 32 := hk
  simp only [State.word, State.placed, State.field, fieldSpec, Config.spec, BitVec.getLsbD_or,
    BitVec.getLsbD_shiftLeft, BitVec.getLsbD_setWidth, BitVec.getLsbD_append]
  interval_cases k <;> simp

/-- Which register bit stands at each bit of W. -/
theorem State.word_getLsbD (s : State) (k : Nat) :
    s.word.getLsbD k =
      if k < 4 then s.extra.getLsbD k
      else if k < 10 then s.nframes.getLsbD (k - 4)
      else if k < 12 then s.atype.getLsbD (k - 10)
      else if k < 20 then s.offx.getLsbD (k - 12)
      else if k < 28 then s.offy.getLsbD (k - 20)
      else s.aspeed.getLsbD (k - 28) := by
  rw [State.word_eq_append]
  simp only [BitVec.getLsbD_append]
  split
  · rfl
  · split_ifs <;> first | omega | congr 1

theorem State.extra_eq_slice (s : State) : s.extra = s.word.extractLsb' 0 4 := by
  apply BitVec.eq_of_getLsbD_eq
  intro k hk
  have hk : k < 4 := hk
  simp [State.word_getLsbD, hk]

theorem State.nframes_eq_slice (s : State) : s.nframes = s.word.extractLsb' 4 6 := by
  apply BitVec.eq_of_getLsbD_eq
  intro k hk
  have hk : k < 6 := hk
  simp [State.word_getLsbD, hk, show 4 + k < 10 by omega]

theorem State.atype_eq_slice (s : State) : s.atype = s.word.extractLsb' 10 2 := by
  apply BitVec.eq_of_getLsbD_eq
  intro k hk
  have hk : k < 2 := hk
  simp [State.word_getLsbD, hk, show ¬ 10 + k < 4 by omega, show ¬ 10 + k < 10 by omega,
    show 10 + k < 12 by omega]

theorem State.offx_eq_slice (s : State) : s.offx = s.word.extractLsb' 12 8 := by
  apply BitVec.eq_of_getLsbD_eq
  intro k hk
  have hk : k < 8 := hk
  simp [State.word_getLsbD, hk, show ¬ 12 + k < 4 by omega, show ¬ 12 + k < 10 by omega,
    show ¬ 12 + k < 12 by omega, show 12 + k < 20 by omega]

theorem State.offy_eq_slice (s : State) : s.offy = s.word.extractLsb' 20 8 := by
  apply BitVec.eq_of_getLsbD_eq
  intro k hk
  have hk : k < 8 := hk
  simp [State.word_getLsbD, hk, show ¬ 20 + k < 4 by omega, show ¬ 20 + k < 10 by omega,
    show ¬ 20 + k < 12 by omega, show ¬ 20 + k < 20 by omega, show 20 + k < 28 by omega]

theorem State.aspeed_eq_slice (s : State) : s.aspeed = s.word.extractLsb' 28 4 := by
  apply BitVec.eq_of_getLsbD_eq
  intro k hk
  have hk : k < 4 := hk
  simp [State.word_getLsbD, hk, show ¬ 28 + k < 4 by omega, show ¬ 28 + k < 10 by omega,
    show ¬ 28 + k < 12 by omega, show ¬ 28 + k < 20 by omega, show ¬ 28 + k < 28 by omega]

/-- Equal words mean equal registers: W and the six registers are one set of bits. -/
theorem State.sameFields_of_word_eq {s t : State} (h : t.word = s.word) : SameFields s t := by
  refine ⟨?_, ?_, ?_, ?_, ?_, ?_⟩
  · rw [State.extra_eq_slice, State.extra_eq_slice s, h]
  · rw [State.nframes_eq_slice, State.nframes_eq_slice s, h]
  · rw [State.atype_eq_slice, State.atype_eq_slice s, h]
  · rw [State.offx_eq_slice, State.offx_eq_slice s, h]
  · rw [State.offy_eq_slice, State.offy_eq_slice s, h]
  · rw [State.aspeed_eq_slice, State.aspeed_eq_slice s, h]

theorem State.word_eq_of_sameFields {s t : State} (h : SameFields s t) : t.word = s.word := by
  obtain ⟨h0, h1, h2, h3, h4, h5⟩ := h
  simp only [State.word_eq_append, h0, h1, h2, h3, h4, h5]

/-- A word written to the registers reads back whole: the fields partition the word. -/
@[simp] theorem State.word_setWord (s : State) (v : Word) : (s.setWord v).word = v := by
  apply BitVec.eq_of_getLsbD_eq
  intro k hk
  have hk : k < 32 := hk
  rw [State.word_getLsbD]
  simp only [State.setWord_extra, State.setWord_nframes, State.setWord_atype, State.setWord_offx, State.setWord_offy,
    State.setWord_aspeed, BitVec.getLsbD_extractLsb']
  split_ifs with h1 h2 h3 h4 h5
  · simp [h1]
  · simp [show k - 4 < 6 by omega, show 4 + (k - 4) = k by omega]
  · simp [show k - 10 < 2 by omega, show 10 + (k - 10) = k by omega]
  · simp [show k - 12 < 8 by omega, show 12 + (k - 12) = k by omega]
  · simp [show k - 20 < 8 by omega, show 20 + (k - 20) = k by omega]
  · simp [show k - 28 < 4 by omega, show 28 + (k - 28) = k by omega]

/-! ### Byte lanes (20_memory.md R40 to R43): a read after a write -/

/-- Little-endian: byte lane k begins at bit 8k. -/
@[simp] theorem laneLow_eq (k : BitVec 2) : laneLow k = 8 * k.toNat := rfl

theorem byteOf_getLsbD (w : Word) (k : BitVec 2) (j : Nat) :
    (byteOf w k).getLsbD j = (decide (j < 8) && w.getLsbD (8 * k.toNat + j)) := by
  simp [byteOf, BitVec.getLsbD_setWidth, BitVec.getLsbD_ushiftRight]

theorem withByte_getLsbD (w : Word) (k : BitVec 2) (b : Byte) (j : Nat) (hj : j < 32) :
    (withByte w k b).getLsbD j =
      if 8 * k.toNat ≤ j ∧ j < 8 * k.toNat + 8 then b.getLsbD (j - 8 * k.toNat) else w.getLsbD j := by
  have hff : ∀ m, (0xFF : Word).getLsbD m = decide (m < 8) := by
    intro m
    by_cases hm : m < 32
    · interval_cases m <;> rfl
    · rw [BitVec.getLsbD_of_ge _ _ (Nat.le_of_not_lt hm)]
      simp; omega
  have hb : ∀ m, 8 ≤ m → b.getLsbD m = false := fun m hm => BitVec.getLsbD_of_ge _ _ hm
  simp only [withByte, laneLow_eq, BitVec.getLsbD_or, BitVec.getLsbD_and, BitVec.getLsbD_not, BitVec.getLsbD_shiftLeft,
    BitVec.getLsbD_setWidth, hj, hff, decide_true, Bool.true_and]
  by_cases h1 : j < 8 * k.toNat
  · simp [h1, show ¬ 8 * k.toNat ≤ j by omega]
  · by_cases h2 : j < 8 * k.toNat + 8
    · simp [h1, show j - 8 * k.toNat < 8 by omega, show j - 8 * k.toNat < 32 by omega,
        show 8 * k.toNat ≤ j by omega, h2]
    · rw [hb (j - 8 * k.toNat) (by omega)]
      simp [h1, h2, show ¬ j - 8 * k.toNat < 8 by omega]

/-- A read of the byte just written gives it, and every other byte reads as before. -/
theorem byteOf_withByte (w : Word) (j k : BitVec 2) (b : Byte) :
    byteOf (withByte w k b) j = if j = k then b else byteOf w j := by
  apply BitVec.eq_of_getLsbD_eq
  intro m hm
  have hj : j.toNat < 4 := j.isLt
  rw [byteOf_getLsbD, withByte_getLsbD _ _ _ _ (by omega)]
  by_cases h : j = k
  · subst h
    simp [hm]
  · have hne : j.toNat ≠ k.toNat := fun e => h (BitVec.eq_of_toNat_eq e)
    rw [if_neg (by omega), if_neg h, byteOf_getLsbD]

@[simp] theorem State.word_memWrite (s : State) (k : BitVec 2) (b : Byte) :
    (s.memWrite k b).word = withByte s.word k b := State.word_setWord _ _

theorem State.memRead_memWrite (s : State) (j k : BitVec 2) (b : Byte) :
    (s.memWrite k b).memRead j = if j = k then b else s.memRead j := by
  simp only [State.memRead, State.word_memWrite, byteOf_withByte]

/-- A lane write leaves the record and the ports alone. -/
theorem State.memWrite_frame (s : State) (k : BitVec 2) (b : Byte) :
    SameStatus s (s.memWrite k b) ∧ (s.memWrite k b).inputs = s.inputs ∧ (s.memWrite k b).responses = s.responses :=
  ⟨⟨rfl, rfl, rfl, rfl⟩, rfl, rfl⟩

/-! ### The fault entry (60_exceptions.md R168) -/

theorem State.recordFault_of_err {s : State} (h : s.err = true) (c : Cause) (f : FieldIdx) (v : Word) :
    s.recordFault c f v = s := if_pos h

theorem State.recordFault_of_no_err {s : State} (h : s.err = false) (c : Cause) (f : FieldIdx) (v : Word) :
    s.recordFault c f v = { s with err := true, ecode := c, efield := f, eval := v } := by
  simp [State.recordFault, h]

/-- Everything the one fault entry does. -/
theorem State.raise_entered (s : State) (c : Cause) (f : FieldIdx) (v : Word) : FaultEntered s (s.raise c f v) c f v := by
  cases h : s.err
  · simp [FaultEntered, SameFields, Answered, State.raise, State.recordFault_of_no_err h, h]
  · simp [FaultEntered, SameFields, SameStatus, Answered, State.raise, State.recordFault_of_err h, h]

/-- A fault entry leaves ERR at 1. -/
theorem State.raise_err (s : State) (c : Cause) (f : FieldIdx) (v : Word) : (s.raise c f v).err = true := by
  cases h : s.err
  · simp [State.raise, State.recordFault_of_no_err h]
  · simp [State.raise, State.recordFault_of_err h, h]

theorem State.raiseIllegal_entered (s : State) (c : CmdWord) :
    FaultEntered s (s.raiseIllegal c) .illegalCommand .extra (illegalEval c) :=
  State.raise_entered _ _ _ _

/-! ### SETF's shared operation (42_pack_ops.md) -/

/-- The range check of a field is its accept set in R96's table. -/
theorem inRange_iff_accepts (i : FieldIdx) (v : Int) : inRange v (fieldSpec i) = true ↔ Accepts i v := by
  cases i <;>
    simp [inRange, specMin, specMax, specMask, Accepts, acceptLow, acceptHigh]

theorem State.setField_of_accepts {i : FieldIdx} {v : Word} (h : Accepts i v.toInt) (s : State) :
    s.setField i v = (s.writeField i v).respond 0 := if_pos ((inRange_iff_accepts i _).mpr h)

theorem State.setField_of_not_accepts {i : FieldIdx} {v : Word} (h : ¬ Accepts i v.toInt) (s : State) :
    s.setField i v = s.raise .rangeError i v :=
  if_neg fun e => h ((inRange_iff_accepts i _).mp e)

/-- A register write changes its register only. -/
theorem State.writeField_frame (s : State) (i : FieldIdx) (v : Word) :
    SameFieldsBut i s (s.writeField i v) ∧ SameStatus s (s.writeField i v) ∧
      (s.writeField i v).inputs = s.inputs ∧ (s.writeField i v).responses = s.responses := by
  cases i <;> simp [State.writeField, SameFieldsBut, SameStatus]

/-! ### The operations do not read the command port (00_scope.md R7) -/

@[simp] theorem State.recordFault_withInputs (s : State) (l : List HostInput) (c : Cause) (f : FieldIdx) (v : Word) :
    (s.withInputs l).recordFault c f v = (s.recordFault c f v).withInputs l := by
  cases h : s.err <;> simp [State.recordFault, State.withInputs, h]

@[simp] theorem State.raise_withInputs (s : State) (l : List HostInput) (c : Cause) (f : FieldIdx) (v : Word) :
    (s.withInputs l).raise c f v = (s.raise c f v).withInputs l := by
  simp only [State.raise, State.recordFault_withInputs]
  rfl

@[simp] theorem State.setField_withInputs (s : State) (l : List HostInput) (i : FieldIdx) (v : Word) :
    (s.withInputs l).setField i v = (s.setField i v).withInputs l := by
  by_cases h : Accepts i v.toInt
  · rw [State.setField_of_accepts h, State.setField_of_accepts h]
    cases i <;> rfl
  · rw [State.setField_of_not_accepts h, State.setField_of_not_accepts h, State.raise_withInputs]

/-! ### exec, inverted once -/

theorem exec_setf (i : FieldIdx) (v : Word) (s : State) : exec (.setf i v) s = .next (s.setField i v) := by
  cases i <;> rfl

theorem exec_getf (i : FieldIdx) (s : State) : exec (.getf i) s = .next (s.respond (s.fieldPort i)) := by
  cases i <;> rfl

theorem exec_rdspec (i : FieldIdx) (s : State) :
    exec (.rdspec i) s = .next (s.respond (specReg (fieldSpec i))) := by
  cases i <;> rfl

/-- The five things a command can do: clear, write the word, write a lane, the SETF operation, or only answer. -/
theorem exec_cases {i : Instr} {s t : State} (h : exec i s = .next t) :
    (i = .clr ∧ t = s.clear.respond 0) ∨ (∃ w, i = .ldw w ∧ t = (s.setWord w).respond 0) ∨
    (∃ k b, i = .ldb k b ∧ t = (s.memWrite k b).respond 0) ∨ (∃ j v, i = .setf j v ∧ t = s.setField j v) ∨
    ((∀ j v, i ≠ .setf j v) ∧ i ≠ .clr ∧ ∃ d, t = s.respond d) := by
  cases i <;> cases h
  case clr => exact .inl ⟨rfl, rfl⟩
  case ldw w => exact .inr (.inl ⟨w, rfl, rfl⟩)
  case ldb k b => exact .inr (.inr (.inl ⟨k, b, rfl, rfl⟩))
  case setfExtra v => exact .inr (.inr (.inr (.inl ⟨.extra, v, rfl, rfl⟩)))
  case setfNframes v => exact .inr (.inr (.inr (.inl ⟨.nframes, v, rfl, rfl⟩)))
  case setfAtype v => exact .inr (.inr (.inr (.inl ⟨.atype, v, rfl, rfl⟩)))
  case setfOffx v => exact .inr (.inr (.inr (.inl ⟨.offx, v, rfl, rfl⟩)))
  case setfOffy v => exact .inr (.inr (.inr (.inl ⟨.offy, v, rfl, rfl⟩)))
  case setfAspeed v => exact .inr (.inr (.inr (.inl ⟨.aspeed, v, rfl, rfl⟩)))
  all_goals
    refine .inr (.inr (.inr (.inr ⟨fun j v e => ?_, nofun, _, rfl⟩)))
    cases j <;> cases e

end Sys2Proof.Machine
end

