-- ==== Sys2Proof/Laws/PerInstr.lean ====
section
/-! SUPPORT. Statements made per command. EncodesInRow: the encoded word has its opcode-table row's fixed bits
(30_encoding.md R67). -/

namespace Sys2Proof.Laws.EncodesInRow

/-- The command's word ANDed with its row's mask is its row's match. -/
def Statement (i : Instr) : Prop := encode i &&& (opcodeRow i).2 = (opcodeRow i).1

/-- An 8-bit op and sel mask on a word given by its fields reads op and sel only. -/
theorem and_opSelMask (op sel : BitVec 4) (d : Word) :
    cmdWord op sel d &&& 0xFF00000000#40 = cmdWord op sel 0 := by
  apply BitVec.eq_of_getLsbD_eq
  intro k hk
  have hm : (0xFF00000000#40).getLsbD k = decide (32 ≤ k) := by interval_cases k <;> rfl
  simp only [BitVec.getLsbD_and, cmdWord, BitVec.getLsbD_append, hm]
  split
  · simp [show ¬ 32 ≤ k by omega]
  · simp [show 32 ≤ k by omega]

/-- A 4-bit op mask reads op only. -/
theorem and_opMask (op : BitVec 4) (d : Word) : cmdWord op 0 d &&& 0xF000000000#40 = cmdWord op 0 0 := by
  apply BitVec.eq_of_getLsbD_eq
  intro k hk
  have hm : (0xF000000000#40).getLsbD k = decide (36 ≤ k) := by interval_cases k <;> rfl
  simp only [BitVec.getLsbD_and, cmdWord, BitVec.getLsbD_append, hm]
  split
  · simp [show ¬ 36 ≤ k by omega]
  · split
    · simp
    · simp; omega

/-- The mask of LDB and STB reads op and sel[3:2], which are fixed for every lane. -/
theorem and_laneMask (op : BitVec 4) (k : BitVec 2) (d : Word) :
    cmdWord op (k.setWidth 4) d &&& 0xFC00000000#40 = cmdWord op 0 0 := by
  apply BitVec.eq_of_getLsbD_eq
  intro j hj
  have hk : ∀ m, 2 ≤ m → k.getLsbD m = false := fun m h => BitVec.getLsbD_of_ge _ _ h
  have hm : (0xFC00000000#40).getLsbD j = decide (34 ≤ j) := by interval_cases j <;> rfl
  simp only [BitVec.getLsbD_and, cmdWord, BitVec.getLsbD_append, hm, BitVec.getLsbD_setWidth]
  split
  · simp [show ¬ 34 ≤ j by omega]
  · split
    · by_cases h : 34 ≤ j
      · simp [hk (j - 32) (by omega)]
      · simp [h]
    · simp; omega

theorem nop : Statement .nop := rfl
theorem clr : Statement .clr := rfl
theorem ldw (w : Word) : Statement (.ldw w) := and_opMask _ _
theorem stw : Statement .stw := rfl
theorem ldb (k : BitVec 2) (b : Byte) : Statement (.ldb k b) := and_laneMask _ _ _
theorem stb (k : BitVec 2) : Statement (.stb k) := and_laneMask _ _ _
theorem setfExtra (v : Word) : Statement (.setfExtra v) := and_opSelMask _ _ _
theorem setfNframes (v : Word) : Statement (.setfNframes v) := and_opSelMask _ _ _
theorem setfAtype (v : Word) : Statement (.setfAtype v) := and_opSelMask _ _ _
theorem setfOffx (v : Word) : Statement (.setfOffx v) := and_opSelMask _ _ _
theorem setfOffy (v : Word) : Statement (.setfOffy v) := and_opSelMask _ _ _
theorem setfAspeed (v : Word) : Statement (.setfAspeed v) := and_opSelMask _ _ _
theorem getfExtra : Statement .getfExtra := rfl
theorem getfNframes : Statement .getfNframes := rfl
theorem getfAtype : Statement .getfAtype := rfl
theorem getfOffx : Statement .getfOffx := rfl
theorem getfOffy : Statement .getfOffy := rfl
theorem getfAspeed : Statement .getfAspeed := rfl
theorem getat : Statement .getat := rfl
theorem rdstStatus : Statement .rdstStatus := rfl
theorem rdstEval : Statement .rdstEval := rfl
theorem rdstEmin : Statement .rdstEmin := rfl
theorem rdstEmax : Statement .rdstEmax := rfl
theorem rdspecExtra : Statement .rdspecExtra := rfl
theorem rdspecNframes : Statement .rdspecNframes := rfl
theorem rdspecAtype : Statement .rdspecAtype := rfl
theorem rdspecOffx : Statement .rdspecOffx := rfl
theorem rdspecOffy : Statement .rdspecOffy := rfl
theorem rdspecAspeed : Statement .rdspecAspeed := rfl

end Sys2Proof.Laws.EncodesInRow
end

