-- ==== Sys2Proof/Tests/Slice0.lean ====
section
/-! SUPPORT. Small tests, expected values from spec/95_test_vectors.md and the rules' examples, and for each obligation with
hypotheses a concrete instance that meets them. -/

namespace Sys2Proof.Tests

open Sys2Proof.Machine

/-! ### Helpers -/

/-- The state a command leaves, if it gives a next state. -/
def after (i : Instr) (s : State) : Option State :=
  match exec i s with
  | .next t => some t
  | _ => none

/-- The state a command word leaves. -/
def afterWord (c : CmdWord) (s : State) : Option State :=
  match acceptCommand c s with
  | .next t => some t
  | _ => none

/-- The state one step leaves. -/
def afterStep (s : State) : Option State :=
  match step s with
  | .next t => some t
  | _ => none

/-- The response a command adds. -/
def answers (i : Instr) (s : State) : Option Response := (after i s).bind fun t => t.responses.getLast?

/-- A state with the given word in its registers. -/
def holding (w : Word) : State := State.reset.setWord w

/-- P3's state after step 2: word 0x105FD8A7 and the record of SETF.OFFX 128. -/
def offxFault : State :=
  { holding 0x105FD8A7 with err := true, ecode := .rangeError, efield := .offx, eval := 0x80 }

/-- P5's state after step 2: word 0x00000C00 and the record of reserved op 0xB. -/
def illegalFault : State :=
  { holding 0x00000C00 with err := true, ecode := .illegalCommand, eval := 0xB0 }

/-- Word, STATUS and EVAL, the columns of 95_test_vectors.md part 3. -/
def columns (s : State) : Word × Word × Word := (s.word, s.statusReg, s.eval)

/-! ### The well-formedness check (00_scope.md R6): the six rows pass, an ill-formed table for each condition is refused -/

theorem test_wf_fixed_table : SpecTable.wellFormed Config.bfc32.specs = true := by decide

theorem test_wf_refuses_size_zero : FieldSpec.wellFormed { bitSize := 0, signed := false, bitOffset := 0 } = false := by
  decide

theorem test_wf_refuses_size_33 : FieldSpec.wellFormed { bitSize := 33, signed := false, bitOffset := 0 } = false := by
  decide

theorem test_wf_refuses_offset_32 : FieldSpec.wellFormed { bitSize := 1, signed := false, bitOffset := 32 } = false := by
  decide

theorem test_wf_refuses_sum_33 : FieldSpec.wellFormed { bitSize := 8, signed := true, bitOffset := 25 } = false := by
  decide

theorem test_wf_accepts_whole_word : FieldSpec.wellFormed { bitSize := 32, signed := true, bitOffset := 0 } = true := by
  decide

theorem test_wf_refuses_gap :
    SpecTable.wellFormed
      [{ bitSize := 15, signed := false, bitOffset := 0 }, { bitSize := 16, signed := false, bitOffset := 16 }] = false := by
  decide

theorem test_wf_refuses_overlap :
    SpecTable.wellFormed
      [{ bitSize := 17, signed := false, bitOffset := 0 }, { bitSize := 16, signed := false, bitOffset := 16 }] = false := by
  decide

/-- The configuration of 00_scope.md R5, and one whose table is another partition. -/
theorem test_config_accepted :
    Config.wellFormed Config.bfc32 = true ∧
    Config.wellFormed { Config.bfc32 with
      extra := { bitSize := 6, signed := false, bitOffset := 0 }
      nframes := { bitSize := 4, signed := true, bitOffset := 6 } } = true := by decide

theorem test_config_refuses_overlapping_rows :
    Config.wellFormed { Config.bfc32 with extra := { bitSize := 5, signed := false, bitOffset := 0 } } = false := by decide

/-- A parameter of R5 at another value is refused. -/
theorem test_config_refuses_other_values :
    Config.wellFormed { Config.bfc32 with nFields := 5 } = false ∧
    Config.wellFormed { Config.bfc32 with bitSizeMin := 0 } = false ∧
    Config.wellFormed { Config.bfc32 with valW := 16 } = false ∧
    Config.wellFormed { Config.bfc32 with cmdW := 41 } = false ∧
    Config.wellFormed { Config.bfc32 with nBytes := 3 } = false ∧
    Config.wellFormed { Config.bfc32 with animationMembers := 5 } = false ∧
    Config.wellFormed { Config.bfc32 with invalidOrdinal := 4 } = false := by decide

/-! ### Decoding: a word of each command written out from its encoding (30_encoding.md R62, 95_test_vectors.md) -/

theorem test_decode_nop : decodeTableWord 40 0x0F12345678 = some .nop := by decide

theorem test_decode_clr : decodeTableWord 40 0x1000000000 = some .clr := by decide

theorem test_decode_ldw : decodeTableWord 40 0x2012345678 = some (.ldw 0x12345678) := by decide

theorem test_decode_stw : decodeTableWord 40 0x3FFFFFFFFF = some .stw := by decide

theorem test_decode_ldb : decodeTableWord 40 0x43FFFFFF80 = some (.ldb 3 0x80) := by decide

theorem test_decode_stb : decodeTableWord 40 0x5200000000 = some (.stb 2) := by decide

theorem test_decode_setfExtra : decodeTableWord 40 0x6000000007 = some (.setfExtra 7) := by decide

theorem test_decode_setfNframes : decodeTableWord 40 0x610000000A = some (.setfNframes 10) := by decide

theorem test_decode_setfAtype : decodeTableWord 40 0x6200000002 = some (.setfAtype 2) := by decide

theorem test_decode_setfOffx : decodeTableWord 40 0x63FFFFFFFD = some (.setfOffx 0xFFFFFFFD) := by decide

theorem test_decode_setfOffy : decodeTableWord 40 0x64FFFFFF80 = some (.setfOffy 0xFFFFFF80) := by decide

theorem test_decode_setfAspeed : decodeTableWord 40 0x6500000008 = some (.setfAspeed 8) := by decide

theorem test_decode_getfExtra : decodeTableWord 40 0x7000000000 = some .getfExtra := by decide

theorem test_decode_getfNframes : decodeTableWord 40 0x7100000000 = some .getfNframes := by decide

theorem test_decode_getfAtype : decodeTableWord 40 0x7200000000 = some .getfAtype := by decide

theorem test_decode_getfOffx : decodeTableWord 40 0x7300000000 = some .getfOffx := by decide

theorem test_decode_getfOffy : decodeTableWord 40 0x7400000000 = some .getfOffy := by decide

theorem test_decode_getfAspeed : decodeTableWord 40 0x7500000000 = some .getfAspeed := by decide

theorem test_decode_getat : decodeTableWord 40 0x8000000000 = some .getat := by decide

theorem test_decode_rdstStatus : decodeTableWord 40 0x9000000000 = some .rdstStatus := by decide

theorem test_decode_rdstEval : decodeTableWord 40 0x9100000000 = some .rdstEval := by decide

theorem test_decode_rdstEmin : decodeTableWord 40 0x9200000000 = some .rdstEmin := by decide

theorem test_decode_rdstEmax : decodeTableWord 40 0x9300000000 = some .rdstEmax := by decide

theorem test_decode_rdspecExtra : decodeTableWord 40 0xA000000000 = some .rdspecExtra := by decide

theorem test_decode_rdspecNframes : decodeTableWord 40 0xA100000000 = some .rdspecNframes := by decide

theorem test_decode_rdspecAtype : decodeTableWord 40 0xA200000000 = some .rdspecAtype := by decide

theorem test_decode_rdspecOffx : decodeTableWord 40 0xA300000000 = some .rdspecOffx := by decide

theorem test_decode_rdspecOffy : decodeTableWord 40 0xA400000000 = some .rdspecOffy := by decide

theorem test_decode_rdspecAspeed : decodeTableWord 40 0xA500000000 = some .rdspecAspeed := by decide

/-- 95_test_vectors.md 2.8: reserved codes and selectors out of range are refused by name. -/
theorem test_decode_reserved : decode 0xB000000000#40 = .error (.reservedOp 0xB) := by rfl

theorem test_decode_getf_sel6 : decode 0x7600000000#40 = .error (.selectorOutOfRange 7 6) := by rfl

theorem test_decode_rejections :
    [0xB000000000, 0xF0FFFFFFFF, 0xCA00000001, 0x7600000000, 0x6F00000000, 0xA600000000, 0x4400000000, 0x5400000000,
      0x9400000000].all (fun w => (decodeTableWord 40 w).isNone) = true := by decide

/-- 30_encoding.md R70's two encodings. -/
theorem test_encode_setfOffx : encode (.setfOffx 0xFFFFFFFD) = 0x63FFFFFFFD#40 := by decide

theorem test_asm_setfOffx : asmText (asmSetf .offx (-3)) = "SETF.OFFX -3" ∧ asmWordText (asmSetf .offx (-3)) = "0x63FFFFFFFD" := by
  decide

theorem test_asm_ldb : asmText (.ldb 3 0x80) = "LDB 3, 0x80" ∧ asmText (.ldw 0xDEADBEEF) = "LDW 0xDEADBEEF" := by decide

/-! ### The pure functions (95_test_vectors.md 2.1, 2.3, 2.6; 40_field_functions.md examples) -/

theorem test_spec_constants :
    (specMask (fieldSpec .nframes), specSignBit (fieldSpec .nframes), specMin (fieldSpec .nframes),
      specMax (fieldSpec .nframes)) = (63, 32, 0, 63) ∧
    (specMask (fieldSpec .offy), specSignBit (fieldSpec .offy), specMin (fieldSpec .offy), specMax (fieldSpec .offy)) =
      (255, 128, -128, 127) := by decide

theorem test_spec_constants_corners :
    specMin { bitSize := 1, signed := true, bitOffset := 0 } = -1 ∧
    specMax { bitSize := 1, signed := true, bitOffset := 0 } = 0 ∧
    specMask { bitSize := 32, signed := false, bitOffset := 0 } = 4294967295 ∧
    specMin { bitSize := 32, signed := true, bitOffset := 0 } = -2147483648 := by decide

theorem test_masks_in_place :
    Config.bfc32.specs.map maskInPlace =
      [0x0000000F, 0x000003F0, 0x00000C00, 0x000FF000, 0x0FF00000, 0xF0000000] := by decide

theorem test_unpack_offx : unpack 0x000FF000 (fieldSpec .offx) = -1 ∧ unpack 0x00080000 (fieldSpec .offx) = -128 := by decide

theorem test_ext_deadbeef :
    (extExtra 0xDEADBEEF, extNframes 0xDEADBEEF, extAtype 0xDEADBEEF, extOffx 0xDEADBEEF, extOffy 0xDEADBEEF,
      extAspeed 0xDEADBEEF) = (15, 46, 3, -37, -22, 13) := by decide

theorem test_lanes : lane (-3) (fieldSpec .offx) = 0x000FD000 ∧ laneOffx 255 = 0x000FF000 ∧ laneNframes 64 = 0 ∧
    laneOffy (-1) = 0x0FF00000 ∧ laneAspeed 8 = 0x80000000 := by decide

theorem test_pack : pack 7 10 2 (-3) 5 1 = 0x105FD8A7 ∧ pack 3 12 1 (-20) 17 4 = 0x411EC4C3 := by decide

theorem test_pack_table : packTable Config.bfc32.specs [7, 10, 2, -3, 5, 1] = 0x105FD8A7 := by decide

theorem test_atype_decode : atypeDecode 2 = 2 ∧ atypeDecode 4 = -1 ∧ atypeDecode (-1) = -1 ∧ atypeDecode 255 = -1 := by decide

theorem test_le_bytes : leBytes 0x12345678 = (0x78, 0x56, 0x34, 0x12) ∧ fromLeBytes 0xA7 0xD8 0x5F 0x10 = 0x105FD8A7 := by
  decide

theorem test_attribute_offset : attributeOffset 1 0 = 20 ∧ attributeOffset 10 3 = 68 := by decide

/-! ### Commands, one step each -/

theorem test_nop : (after .nop offxFault).map columns = some (0x105FD8A7, 0x33, 0x80) := by decide

theorem test_clr : (after .clr offxFault).map columns = some (0, 0, 0) := by decide

theorem test_ldw_registers :
    (after (.ldw 0x12345678) State.reset).map (fun t => (t.extra, t.nframes, t.atype, t.offx, t.offy, t.aspeed)) =
      some (0x8, 0x27, 0x1, 0x45, 0x23, 0x1) := by decide

theorem test_ldw_keeps_record : (after (.ldw 0) offxFault).map columns = some (0, 0x33, 0x80) := by decide

theorem test_stw : answers .stw offxFault = some (okResponse 0x105FD8A7) := by decide

theorem test_ldb_lane1 :
    (after (.ldb 1 0) (holding 0xFFFFFFFF)).map
        (fun t => [t.val .extra, t.val .nframes, t.val .atype, t.val .offx, t.val .offy, t.val .aspeed]) =
      some [15, 15, 0, -16, -1, 15] := by decide

theorem test_ldb_lane3 : (after (.ldb 3 0x80) (holding 0x00000C00)).map State.word = some 0x80000C00 := by decide

theorem test_stb_lane1 : answers (.stb 1) (holding 0x105FD8A7) = some (okResponse 0xD8) := by decide

theorem test_stb_lane3 : answers (.stb 3) (holding 0x80000000) = some (okResponse 0x80) := by decide

theorem test_setfExtra_accepts : (after (.setfExtra 0x0000000F) State.reset).map columns = some (0x0000000F, 0, 0) := by decide

theorem test_setfExtra_rejects : (after (.setfExtra 0x00000010) State.reset).map columns = some (0, 0x03, 0x00000010) ∧
    answers (.setfExtra 0x00000010) State.reset = some faultResponse := by decide

theorem test_setfNframes_accepts : (after (.setfNframes 0x0000003F) State.reset).map columns = some (0x000003F0, 0, 0) := by decide

theorem test_setfNframes_rejects : (after (.setfNframes 0x00000040) State.reset).map columns = some (0, 0x13, 0x00000040) ∧
    answers (.setfNframes 0x00000040) State.reset = some faultResponse := by decide

theorem test_setfAtype_accepts : (after (.setfAtype 0x00000003) State.reset).map columns = some (0x00000C00, 0, 0) := by decide

theorem test_setfAtype_rejects : (after (.setfAtype 0xFFFFFFFF) State.reset).map columns = some (0, 0x23, 0xFFFFFFFF) ∧
    answers (.setfAtype 0xFFFFFFFF) State.reset = some faultResponse := by decide

theorem test_setfOffx_accepts : (after (.setfOffx 0xFFFFFF80) State.reset).map columns = some (0x00080000, 0, 0) := by decide

theorem test_setfOffx_rejects : (after (.setfOffx 0x000000FF) State.reset).map columns = some (0, 0x33, 0x000000FF) ∧
    answers (.setfOffx 0x000000FF) State.reset = some faultResponse := by decide

theorem test_setfOffy_accepts : (after (.setfOffy 0xFFFFFF80) State.reset).map columns = some (0x08000000, 0, 0) := by decide

theorem test_setfOffy_rejects : (after (.setfOffy 0xFFFFFF7F) State.reset).map columns = some (0, 0x43, 0xFFFFFF7F) ∧
    answers (.setfOffy 0xFFFFFF7F) State.reset = some faultResponse := by decide

theorem test_setfAspeed_accepts : (after (.setfAspeed 0x0000000F) State.reset).map columns = some (0xF0000000, 0, 0) := by decide

theorem test_setfAspeed_rejects : (after (.setfAspeed 0xFFFFFFF8) State.reset).map columns = some (0, 0x53, 0xFFFFFFF8) ∧
    answers (.setfAspeed 0xFFFFFFF8) State.reset = some faultResponse := by decide

theorem test_getfExtra : answers .getfExtra (holding 0x12345678) = some (okResponse 8) := by decide

theorem test_getfNframes : answers .getfNframes (holding 0x00000200) = some (okResponse 0x20) := by decide

theorem test_getfAtype : answers .getfAtype (holding 0x00000C00) = some (okResponse 3) := by decide

theorem test_getfOffx : answers .getfOffx (holding 0x00080000) = some (okResponse 0xFFFFFF80) := by decide

theorem test_getfOffy : answers .getfOffy (holding 0xF7F00000) = some (okResponse 0x7F) := by decide

theorem test_getfAspeed : answers .getfAspeed (holding 0x80000000) = some (okResponse 8) := by decide

theorem test_getat : answers .getat (holding 0x00000800) = some (okResponse 2) := by decide

theorem test_rdstStatus : answers .rdstStatus offxFault = some (okResponse 0x33) := by decide

theorem test_rdstEval : answers .rdstEval offxFault = some (okResponse 0x80) := by decide

theorem test_rdstEmin : answers .rdstEmin offxFault = some (okResponse 0xFFFFFF80) := by decide

theorem test_rdstEmax : answers .rdstEmax offxFault = some (okResponse 0x7F) := by decide

theorem test_rdstEmin_illegal : answers .rdstEmin illegalFault = some (okResponse 0) := by decide

theorem test_rdspecExtra : answers .rdspecExtra State.reset = some (okResponse 0x4) := by decide

theorem test_rdspecNframes : answers .rdspecNframes State.reset = some (okResponse 0x406) := by decide

theorem test_rdspecAtype : answers .rdspecAtype State.reset = some (okResponse 0xA02) := by decide

theorem test_rdspecOffx : answers .rdspecOffx State.reset = some (okResponse 0xC88) := by decide

theorem test_rdspecOffy : answers .rdspecOffy State.reset = some (okResponse 0x1488) := by decide

theorem test_rdspecAspeed : answers .rdspecAspeed State.reset = some (okResponse 0x1C04) := by decide

/-! ### Faults and the step -/

/-- P3 step 7: a second fault keeps the first record and answers err = 1. -/
theorem test_second_fault_keeps_record :
    (after (.setfNframes 0xFFFFFFFF) offxFault).map columns = some (0x105FD8A7, 0x33, 0x80) ∧
    answers (.setfNframes 0xFFFFFFFF) offxFault = some faultResponse := by decide

/-- P3 step 12: a SETF in range works after a fault and does not clear ERR. -/
theorem test_setf_after_fault : (after (.setfOffx 127) offxFault).map columns = some (0x1057F8A7, 0x33, 0x80) := by decide

/-- 95_test_vectors.md 2.8. -/
theorem test_illegal_word : (afterWord 0x6F00000000#40 State.reset).map columns = some (0, 5, 0x6F) := by decide

theorem test_step_runs_presented_word :
    (afterStep (State.reset.withFetchWord 40 0x2012345678)).map (fun t => (t.word, t.inputs)) = some (0x12345678, []) := by
  decide

theorem test_step_illegal_word :
    (afterStep (State.reset.withFetchWord 40 0x4400000000)).map (fun t => (columns t, t.responses)) =
      some ((0, 5, 0x44), [faultResponse]) := by decide

theorem test_step_reset_input :
    (afterStep (offxFault.present .reset)).map (fun t => (columns t, t.responses)) = some ((0, 0, 0), []) := by decide

/-- P3: the report of the recorded fault names the field, the value and the bounds. -/
theorem test_range_report : offxFault.rangeReport = some ("OFFX", 128, -128, 127) := by decide

/-! ### Witnesses: each obligation's hypotheses are met -/

theorem witness_illegal_words :
    IllegalWord 0xB000000000#40 ∧ IllegalWord 0xF0FFFFFFFF#40 ∧ IllegalWord 0x7600000000#40 ∧ IllegalWord 0x6F00000000#40 ∧
    IllegalWord 0xA600000000#40 ∧ IllegalWord 0x4400000000#40 ∧ IllegalWord 0x5400000000#40 ∧
    IllegalWord 0x9400000000#40 := by
  refine ⟨?_, ?_, ?_, ?_, ?_, ?_, ?_, ?_⟩ <;> decide

/-- The nearest legal neighbours of 95_test_vectors.md 2.8. -/
theorem witness_legal_neighbours :
    ¬ IllegalWord 0xA000000000#40 ∧ ¬ IllegalWord 0x7500000000#40 ∧ ¬ IllegalWord 0x6500000000#40 ∧
    ¬ IllegalWord 0x4300000000#40 ∧ ¬ IllegalWord 0x5300000000#40 ∧ ¬ IllegalWord 0x9300000000#40 := by decide

theorem witness_DecoderReadsTheTablesBits :
    decode 0x4312345680#40 = .ok (.ldb 3 0x80) ∧
    0x4312345680#40 &&& (opcodeRow (.ldb 0 0)).2 = (opcodeRow (.ldb 0 0)).1 ∧
    (0x12345680#32).extractLsb' 0 8 = (0x00000080#32).extractLsb' 0 8 ∧ (0x3#4 = 0x0 ∨ 0x3#4 = 0x1 ∨ 0x3#4 = 0x3 ∨ 0x3#4 = 0x8) ∧
    (0x9#4 = 0x5 ∨ 0x9#4 = 0x7 ∨ 0x9#4 = 0x9 ∨ 0x9#4 = 0xA) := ⟨rfl, by decide, by decide, by decide, by decide⟩

theorem witness_StepRunsTheDecodedCommand :
    (State.reset.present (.command 0x3000000000#40)).inputs = .command 0x3000000000#40 :: [] ∧
    decode 0x3000000000#40 = .ok .stw ∧ decodeTableWord 40 0x3000000000 = some .stw := ⟨rfl, rfl, rfl⟩

theorem witness_StepRaisesIllegalCommand :
    (offxFault.present (.command 0xB000000000#40)).inputs = .command 0xB000000000#40 :: [] ∧
    IllegalWord 0xB000000000#40 := ⟨rfl, by decide⟩

theorem witness_ResetInputLeavesTheResetState : (offxFault.present .reset).inputs = .reset :: [] := rfl

theorem witness_StepWithoutInputWaits : offxFault.inputs = [] := rfl

theorem witness_RunIsTheLeftFold :
    ((State.reset.present .reset).present (.command 0x6300000080#40)).inputs =
      [0x6300000080#40].map HostInput.command ++ [HostInput.reset] := rfl

theorem witness_RunWentWrong_wrong :
    State.reset.err = false ∧ (∀ c ∈ [0x2000000000#40, 0x6300000080#40], decode c ≠ .ok .clr) ∧
    WentWrong ([0x2000000000#40, 0x6300000080#40].foldl commandEffect State.reset) := by
  refine ⟨rfl, ?_, by decide⟩
  intro c hc
  simp only [List.mem_cons, List.not_mem_nil, or_false] at hc
  rcases hc with rfl | rfl <;> exact nofun

theorem witness_RunWentWrong_clr :
    decode 0x1F00000000#40 = .ok .clr ∧ decode 0x630000007F#40 ≠ .ok .clr ∧
    ¬ WentWrong ([0x1F00000000#40, 0x630000007F#40].foldl commandEffect offxFault) := ⟨rfl, nofun, by decide⟩

theorem witness_RecordOk_none : RecordOk State.reset := ⟨rfl, rfl, rfl⟩

theorem witness_RecordOk_rangeError : RecordOk offxFault := ⟨rfl, by decide⟩

theorem witness_RecordOk_illegalCommand : RecordOk illegalFault := ⟨rfl, rfl, 0xB, 0x0, by decide, by decide⟩

theorem witness_StepKeepsTheRecordOk :
    RecordOk (State.reset.withFetchWord 40 0x6300000080) ∧
    (afterStep (State.reset.withFetchWord 40 0x6300000080)).map columns = some (0, 0x33, 0x80) :=
  ⟨⟨rfl, rfl, rfl⟩, by decide⟩

theorem witness_FaultEntryWritesOnlyTheRecord_range :
    ∃ t, acceptCommand 0x6300000080#40 State.reset = .next t ∧ t.responses = State.reset.responses ++ [faultResponse] :=
  ⟨_, rfl, by decide⟩

theorem witness_FaultEntryWritesOnlyTheRecord_illegal :
    ∃ t, acceptCommand 0xB000000000#40 offxFault = .next t ∧ t.responses = offxFault.responses ++ [faultResponse] :=
  ⟨_, rfl, by decide⟩

theorem witness_RecordIsSticky :
    offxFault.err = true ∧ decode 0x6100000040#40 ≠ .ok .clr ∧ ∃ t, acceptCommand 0x6100000040#40 offxFault = .next t :=
  ⟨rfl, nofun, _, rfl⟩

theorem witness_RecordNeverSteersTheDatapath :
    SameFields (holding 0x105FD8A7) offxFault ∧ (∃ t, acceptCommand 0x3000000000#40 (holding 0x105FD8A7) = .next t) ∧
    (∃ t, acceptCommand 0x3000000000#40 offxFault = .next t) ∧ decode 0x3000000000#40 ≠ .ok .rdstStatus ∧
    decode 0x3000000000#40 ≠ .ok .rdstEval ∧ decode 0x3000000000#40 ≠ .ok .rdstEmin ∧
    decode 0x3000000000#40 ≠ .ok .rdstEmax :=
  ⟨by decide, ⟨_, rfl⟩, ⟨_, rfl⟩, nofun, nofun, nofun, nofun⟩

theorem witness_OnlyTheListedCommandsWrite_fields :
    ∃ t, exec (.setfExtra 15) State.reset = .next t ∧ ¬ SameFields State.reset t := ⟨_, rfl, by decide⟩

theorem witness_OnlyTheListedCommandsWrite_status :
    ∃ t, exec (.setfExtra 16) State.reset = .next t ∧ ¬ SameStatus State.reset t := ⟨_, rfl, by decide⟩

theorem witness_RepeatingACommandIsIdempotent :
    ∃ t u, exec (.setfOffx 128) State.reset = .next t ∧ exec (.setfOffx 128) t = .next u := ⟨_, _, rfl, rfl⟩

theorem witness_LdbWritesOneByteLane_illegal :
    cmdOp 0x4400000000#40 = 0x4 ∧ 3 < (cmdSel 0x4400000000#40).toNat := by decide

theorem witness_LdbWritesOneByteLane_order : [2, 0, 3, 1].Perm [(0 : BitVec 2), 1, 2, 3] := by decide

theorem witness_LanesAliasTheRegisterBits :
    (∃ t, exec (.ldb 0 0xA7) State.reset = .next t) ∧ (∃ t, exec (.ldb 1 0xD2) State.reset = .next t) ∧
    (∃ t, exec (.ldb 2 0x8F) State.reset = .next t) ∧ ∃ t, exec (.ldb 3 0x1C) State.reset = .next t :=
  ⟨⟨_, rfl⟩, ⟨_, rfl⟩, ⟨_, rfl⟩, ⟨_, rfl⟩⟩

theorem witness_RowDecodes_ldb : 0x43FFFFFF80#40 &&& 0xFC00000000#40 = 0x4000000000#40 := by decide

theorem witness_RowDecodes_setf : 0x63FFFFFFFD#40 &&& 0xFF00000000#40 = 0x6300000000#40 := by decide

theorem witness_RowDecodes_nop : 0x0F12345678#40 &&& 0xF000000000#40 = 0x0000000000#40 := by decide

/-- Both ends of every accept set (40_field_functions.md R96). -/
theorem witness_Accepts_bounds :
    (Accepts .extra (0#32).toInt ∧ Accepts .extra (15#32).toInt) ∧ (Accepts .nframes (0#32).toInt ∧ Accepts .nframes (63#32).toInt) ∧
    (Accepts .atype (0#32).toInt ∧ Accepts .atype (3#32).toInt) ∧
    (Accepts .offx (0xFFFFFF80#32).toInt ∧ Accepts .offx (127#32).toInt) ∧
    (Accepts .offy (0xFFFFFF80#32).toInt ∧ Accepts .offy (127#32).toInt) ∧
    (Accepts .aspeed (0#32).toInt ∧ Accepts .aspeed (15#32).toInt) := by decide

/-- The values just outside every accept set (40_field_functions.md R96). -/
theorem witness_Accepts_outside :
    (¬ Accepts .extra (0xFFFFFFFF#32).toInt ∧ ¬ Accepts .extra (16#32).toInt) ∧
    (¬ Accepts .nframes (0xFFFFFFFF#32).toInt ∧ ¬ Accepts .nframes (64#32).toInt) ∧
    (¬ Accepts .atype (0xFFFFFFFF#32).toInt ∧ ¬ Accepts .atype (4#32).toInt) ∧
    (¬ Accepts .offx (0xFFFFFF7F#32).toInt ∧ ¬ Accepts .offx (128#32).toInt) ∧
    (¬ Accepts .offy (0xFFFFFF7F#32).toInt ∧ ¬ Accepts .offy (128#32).toInt) ∧
    (¬ Accepts .aspeed (0xFFFFFFFF#32).toInt ∧ ¬ Accepts .aspeed (16#32).toInt) := by decide

theorem witness_StbReturnsOneByteLane_illegal :
    cmdOp 0x5400000000#40 = 0x5 ∧ 3 < (cmdSel 0x5400000000#40).toNat := by decide

theorem witness_ClrLeavesTheResetState :
    ∃ t, exec .clr offxFault = .next t ∧ offxFault.err = true ∧ t.err = false := ⟨_, rfl, rfl, rfl⟩

theorem witness_UnpackReadsTheFieldsBits :
    (fieldSpec .offx).wellFormed = true ∧
    (0xF00FFFFF#32).extractLsb' (fieldSpec .offx).bitOffset (fieldSpec .offx).bitSize =
      (0x000FF000#32).extractLsb' (fieldSpec .offx).bitOffset (fieldSpec .offx).bitSize := by decide

theorem witness_LaneHoldsTheTruncatedValue :
    FieldSpec.wellFormed { bitSize := 32, signed := false, bitOffset := 0 } = true ∧
    FieldSpec.wellFormed { bitSize := 1, signed := true, bitOffset := 31 } = true := by decide

theorem witness_ValuesRoundTripThroughTheWord :
    inRange 15 (fieldSpec .extra) = true ∧ inRange 63 (fieldSpec .nframes) = true ∧ inRange 3 (fieldSpec .atype) = true ∧
    inRange (-128) (fieldSpec .offx) = true ∧ inRange 127 (fieldSpec .offy) = true ∧ inRange 0 (fieldSpec .aspeed) = true := by
  decide

theorem witness_PackIsInjectiveInRange :
    (Accepts .extra 0 ∧ Accepts .nframes 63 ∧ Accepts .atype 3 ∧ Accepts .offx (-128) ∧ Accepts .offy 127 ∧ Accepts .aspeed 15) ∧
    (Accepts .extra 15 ∧ Accepts .nframes 0 ∧ Accepts .atype 0 ∧ Accepts .offx 127 ∧ Accepts .offy (-128) ∧
      Accepts .aspeed 0) := by decide

/-- A table other than the six rows that the check accepts, and values in its ranges. -/
theorem witness_AcceptedTablesRoundTrip :
    SpecTable.wellFormed [{ bitSize := 31, signed := true, bitOffset := 1 }, { bitSize := 1, signed := true, bitOffset := 0 }] =
      true ∧
    List.Forall₂ (fun sp v => inRange v sp = true)
      [{ bitSize := 31, signed := true, bitOffset := 1 }, { bitSize := 1, signed := true, bitOffset := 0 }] [-5, -1] :=
  ⟨by decide, .cons (by decide) (.cons (by decide) .nil)⟩

/-- Six values in range, at their bounds. -/
def sixGood : FieldIdx → Int
  | .extra => 15 | .nframes => 0 | .atype => 3 | .offx => -128 | .offy => 127 | .aspeed => 0

/-- NFRAMES is the lowest failing field, OFFY fails too. -/
def sixBad : FieldIdx → Int
  | .extra => 15 | .nframes => 64 | .atype => 3 | .offx => -128 | .offy => 128 | .aspeed => 0

theorem witness_Pack6_in_range : ∀ i, Accepts i (sixGood i) := by
  intro i
  cases i <;> decide

theorem witness_Pack6_out_of_range :
    State.reset.err = false ∧ (∀ j, -2147483648 ≤ sixBad j ∧ sixBad j ≤ 2147483647) ∧
    (∀ j, (fieldIndex j).toNat < (fieldIndex .nframes).toNat → Accepts j (sixBad j)) ∧ ¬ Accepts .nframes (sixBad .nframes) := by
  refine ⟨rfl, ?_, ?_, by decide⟩ <;> intro j <;> cases j <;> decide

end Sys2Proof.Tests
end

section
/-! SUPPORT. Totality of the command function (00_scope.md R12): every command gives a next state, and that state is a
completion with one response or the one fault entry. -/

namespace Sys2Proof.Machine

/-! ### acceptCommand by the decoder's two answers (60_exceptions.md R171) -/

theorem acceptCommand_of_decode_ok {c : CmdWord} {i : Instr} (h : decode c = .ok i) (s : State) :
    acceptCommand c s = exec i s := by
  simp only [acceptCommand, h]

theorem acceptCommand_of_decode_error {c : CmdWord} {e : DecodeError} (h : decode c = .error e) (s : State) :
    acceptCommand c s = .next (s.raiseIllegal c) := by
  simp only [acceptCommand, h]

/-! ### Completion or fault -/

/-- No arm of exec stops the block. -/
theorem exec_total (i : Instr) (s : State) : ∃ t, exec i s = .next t := by
  cases i <;> exact ⟨_, rfl⟩

/-- A SETF in range completes with response 0. -/
theorem State.setField_answered {i : FieldIdx} {v : Word} (h : Accepts i v.toInt) (s : State) :
    Answered s (s.setField i v) (okResponse 0) := by
  obtain ⟨-, -, hin, hresp⟩ := State.writeField_frame s i v
  rw [State.setField_of_accepts h]
  exact ⟨by rw [State.respond_responses, hresp], by rw [State.respond_inputs, hin]⟩

/-- A command completes, or it is a SETF out of range and enters the RangeError fault. -/
theorem exec_completes_or_faults {i : Instr} {s t : State} (h : exec i s = .next t) :
    (∃ d, Answered s t (okResponse d)) ∨
      ∃ j v, i = .setf j v ∧ ¬ Accepts j v.toInt ∧ t = s.raise .rangeError j v := by
  obtain ⟨-, rfl⟩ | ⟨w, -, rfl⟩ | ⟨k, b, -, rfl⟩ | ⟨j, v, rfl, rfl⟩ | ⟨-, -, d, rfl⟩ := exec_cases h
  · exact .inl ⟨0, rfl, rfl⟩
  · exact .inl ⟨0, rfl, rfl⟩
  · exact .inl ⟨0, rfl, rfl⟩
  · by_cases hv : Accepts j v.toInt
    · exact .inl ⟨0, State.setField_answered hv s⟩
    · exact .inr ⟨j, v, rfl, hv, State.setField_of_not_accepts hv s⟩
  · exact .inl ⟨d, rfl, rfl⟩

/-- Every word in every state completes or passes through the one fault entry. -/
theorem acceptCommand_completes_or_faults (c : CmdWord) (s : State) :
    ∃ t, acceptCommand c s = .next t ∧
      ((∃ d, Answered s t (okResponse d)) ∨ ∃ k f v, t = s.raise k f v) := by
  cases hc : decode c with
  | error e => exact ⟨_, acceptCommand_of_decode_error hc s, .inr ⟨_, _, _, rfl⟩⟩
  | ok i =>
    obtain ⟨t, ht⟩ := exec_total i s
    refine ⟨t, (acceptCommand_of_decode_ok hc s).trans ht, ?_⟩
    obtain hok | ⟨j, v, -, -, hraise⟩ := exec_completes_or_faults ht
    · exact .inl hok
    · exact .inr ⟨_, _, _, hraise⟩

/-- Settles O9: a completion's response has err = 0, and a fault's clauses are what the one fault entry gives. -/
theorem everyCommandAnswersOnce : Obligations.EveryCommandAnswersOnce := by
  intro c s
  obtain ⟨t, ht, ⟨d, hans⟩ | ⟨k, f, v, rfl⟩⟩ := acceptCommand_completes_or_faults c s
  · exact ⟨t, okResponse d, ht, hans, nofun⟩
  · obtain ⟨hfields, hans, -, -⟩ := State.raise_entered s k f v
    exact ⟨_, faultResponse, ht, hans, fun _ => ⟨rfl, hfields, State.raise_err s k f v⟩⟩

end Sys2Proof.Machine
end

section
/-! SUPPORT. The extractor as the reading of a field's bits (40_field_functions.md R80), the field values of a state
(10_state.md R21) and the reset state (10_state.md R36). -/

namespace Sys2Proof.Machine

/-! ### The extractor reads the field's bits (40_field_functions.md R80)

No well-formedness of the row is needed: shift, mask and sign decode agree with the slice's reading for every row. -/

/-- Shift and mask are the slice, read unsigned. -/
theorem rawField_eq_toNat (w : Word) (sp : FieldSpec) :
    rawField w sp = (w.extractLsb' sp.bitOffset sp.bitSize).toNat := by
  rw [rawField, specMask, Nat.and_two_pow_sub_one_eq_mod, BitVec.toNat_ushiftRight, BitVec.extractLsb'_toNat]

/-- The document's sign test is the slice's top bit. -/
theorem rawField_and_signBit (w : Word) (sp : FieldSpec) :
    (rawField w sp &&& specSignBit sp != 0) = (w.extractLsb' sp.bitOffset sp.bitSize).msb := by
  rw [rawField_eq_toNat, specSignBit, Nat.and_two_pow, BitVec.testBit_toNat, ← BitVec.msb_eq_getLsbD_last]
  cases (w.extractLsb' sp.bitOffset sp.bitSize).msb <;> simp

theorem unpack_of_unsigned {sp : FieldSpec} (h : sp.signed = false) (w : Word) :
    unpack w sp = ((w.extractLsb' sp.bitOffset sp.bitSize).toNat : Int) := by
  simp [unpack, h, rawField_eq_toNat]

/-- `-(mask - raw + 1)` is `raw - 2^bitSize`, the two's-complement reading of a slice whose top bit is set. -/
theorem unpack_of_signed {sp : FieldSpec} (h : sp.signed = true) (w : Word) :
    unpack w sp = (w.extractLsb' sp.bitOffset sp.bitSize).toInt := by
  have hmask : (specMask sp : Int) = ((2 ^ sp.bitSize : Nat) : Int) - 1 := Nat.cast_pred (Nat.two_pow_pos _)
  rw [unpack, rawField_and_signBit, rawField_eq_toNat, h, Bool.true_and, BitVec.toInt_eq_msb_cond, hmask]
  split
  · ring
  · rfl

/-- Every extracted value lies between the row's bounds. -/
theorem unpack_inRange (w : Word) (sp : FieldSpec) : inRange (unpack w sp) sp = true := by
  simp only [inRange, Bool.and_eq_true, decide_eq_true_eq]
  cases h : sp.signed
  · have hlt := (w.extractLsb' sp.bitOffset sp.bitSize).isLt
    rw [unpack_of_unsigned h, specMin, specMax, specMask, h]
    simp only [Bool.false_eq_true, if_false, Int.ofNat_le]
    exact ⟨Int.natCast_nonneg _, Nat.le_sub_one_of_lt hlt⟩
  · rw [unpack_of_signed h, specMin, specMax, h]
    exact ⟨BitVec.le_toInt _, BitVec.toInt_le⟩

/-! ### A field's value is the unpack result on W (10_state.md R21) -/

/-- Each register is its slice of W. -/
theorem State.field_eq_fieldSlice (s : State) (i : FieldIdx) : s.field i = fieldSlice s.word i := by
  cases i
  case extra => exact s.extra_eq_slice
  case nframes => exact s.nframes_eq_slice
  case atype => exact s.atype_eq_slice
  case offx => exact s.offx_eq_slice
  case offy => exact s.offy_eq_slice
  case aspeed => exact s.aspeed_eq_slice

theorem State.val_eq_unpack (s : State) (i : FieldIdx) : s.val i = unpack s.word (fieldSpec i) := by
  rw [State.val, State.field_eq_fieldSlice]
  cases h : (fieldSpec i).signed
  · exact (unpack_of_unsigned h s.word).symm
  · exact (unpack_of_signed h s.word).symm

/-- No register can hold a value outside its field's accept set (10_state.md R24). -/
theorem State.val_accepts (s : State) (i : FieldIdx) : Accepts i (s.val i) := by
  rw [State.val_eq_unpack, ← inRange_iff_accepts]
  exact unpack_inRange s.word (fieldSpec i)

/-- Settles O42: val reads each register by its row's sign, and each register is its slice of W, which the extractor reads
the same way and within the row's bounds. -/
theorem fieldValueIsTheUnpackResult : Obligations.FieldValueIsTheUnpackResult := by
  intro s
  exact ⟨⟨rfl, rfl, rfl, rfl, rfl, rfl⟩, fun i => ⟨s.val_eq_unpack i, s.val_accepts i⟩⟩

/-! ### The reset state (10_state.md R36) -/

@[simp] theorem State.reset_field (i : FieldIdx) : State.reset.field i = 0 := by
  cases i <;> rfl

@[simp] theorem State.reset_word : State.reset.word = 0 := by
  simp [State.word, State.placed]

@[simp] theorem State.reset_val (i : FieldIdx) : State.reset.val i = 0 := by
  simp [State.val]

/-- Settles O13: the registers and the record are 0 by definition, the views and values because what they read is 0. -/
theorem resetLeavesEveryBitZero : Obligations.ResetLeavesEveryBitZero := by
  refine ⟨⟨rfl, rfl, rfl, rfl, rfl, rfl⟩, ⟨rfl, rfl, rfl, rfl⟩, State.reset_word,
    fun i => ⟨State.reset_val i, State.reset.val_accepts i⟩, ⟨rfl, rfl, rfl, rfl, rfl⟩, ?_⟩
  rw [State.reset_val]
  rfl

end Sys2Proof.Machine
end

section
/-! SUPPORT. The decoder by the command map's rows (30_encoding.md R62 to R67): what it answers for each op, when a selector
names something, which words match a row, and the settled statements on the encoding. -/

namespace Sys2Proof.Machine

/-! ### The decoder, one equation per op (R62) -/

section
variable {c : CmdWord}

theorem decode_nop_op (h : cmdOp c = 0x0) : decode c = .ok .nop := by
  simp [decode, h]

theorem decode_clr_op (h : cmdOp c = 0x1) : decode c = .ok .clr := by
  simp [decode, h]

theorem decode_ldw_op (h : cmdOp c = 0x2) : decode c = .ok (.ldw (cmdData c)) := by
  simp [decode, h]

theorem decode_stw_op (h : cmdOp c = 0x3) : decode c = .ok .stw := by
  simp [decode, h]

theorem decode_ldb_op (h : cmdOp c = 0x4) :
    decode c = selected 0x4 (cmdSel c) ((laneOfSel (cmdSel c)).map fun k => .ldb k ((cmdData c).setWidth 8)) := by
  simp [decode, h]

theorem decode_stb_op (h : cmdOp c = 0x5) :
    decode c = selected 0x5 (cmdSel c) ((laneOfSel (cmdSel c)).map .stb) := by
  simp [decode, h]

theorem decode_setf_op (h : cmdOp c = 0x6) :
    decode c = selected 0x6 (cmdSel c) ((fieldOfSel (cmdSel c)).map fun i => .setf i (cmdData c)) := by
  simp [decode, h]

theorem decode_getf_op (h : cmdOp c = 0x7) :
    decode c = selected 0x7 (cmdSel c) ((fieldOfSel (cmdSel c)).map .getf) := by
  simp [decode, h]

theorem decode_getat_op (h : cmdOp c = 0x8) : decode c = .ok .getat := by
  simp [decode, h]

theorem decode_rdst_op (h : cmdOp c = 0x9) : decode c = selected 0x9 (cmdSel c) (rdstOfSel (cmdSel c)) := by
  simp [decode, h]

theorem decode_rdspec_op (h : cmdOp c = 0xA) :
    decode c = selected 0xA (cmdSel c) ((fieldOfSel (cmdSel c)).map .rdspec) := by
  simp [decode, h]

theorem decode_reserved_op (h : 0xB ≤ (cmdOp c).toNat) : decode c = .error (.reservedOp (cmdOp c)) := by
  simp only [decode]
  split
  case h_12 => rfl
  all_goals omega

end

/-- The eleven ops of the command map, and the reserved ones. -/
theorem op_cases (op : BitVec 4) :
    op = 0x0 ∨ op = 0x1 ∨ op = 0x2 ∨ op = 0x3 ∨ op = 0x4 ∨ op = 0x5 ∨ op = 0x6 ∨ op = 0x7 ∨ op = 0x8 ∨ op = 0x9 ∨
      op = 0xA ∨ 0xB ≤ op.toNat := by
  revert op
  decide

/-! ### The selectors (R63 to R65) -/

@[simp] theorem selected_eq_ok (op sel : BitVec 4) (o : Option Instr) (i : Instr) :
    selected op sel o = .ok i ↔ o = some i := by
  cases o <;> simp [selected]

theorem fieldOfSel_isSome (sel : BitVec 4) : (fieldOfSel sel).isSome ↔ sel.toNat < 6 := by
  revert sel
  decide

theorem laneOfSel_isSome (sel : BitVec 4) : (laneOfSel sel).isSome ↔ sel.toNat < 4 := by
  revert sel
  decide

theorem rdstOfSel_isSome (sel : BitVec 4) : (rdstOfSel sel).isSome ↔ sel.toNat < 4 := by
  revert sel
  decide

theorem exists_selected_ok (op sel : BitVec 4) (o : Option Instr) :
    (∃ i, selected op sel o = .ok i) ↔ o.isSome := by
  simp [Option.isSome_iff_exists]

/-! ### Legal and illegal words (R66) -/

/-- A word decodes exactly when its op is no reserved one and selects nothing outside its range. -/
theorem exists_decode_ok_iff (c : CmdWord) : (∃ i, decode c = .ok i) ↔ ¬ IllegalWord c := by
  obtain h | h | h | h | h | h | h | h | h | h | h | h := op_cases (cmdOp c)
  · simp [decode_nop_op h, h]
  · simp [decode_clr_op h, h]
  · simp [decode_ldw_op h, h]
  · simp [decode_stw_op h, h]
  · rw [decode_ldb_op h, exists_selected_ok, Option.isSome_map, laneOfSel_isSome]
    simp [h]
  · rw [decode_stb_op h, exists_selected_ok, Option.isSome_map, laneOfSel_isSome]
    simp [h]
  · rw [decode_setf_op h, exists_selected_ok, Option.isSome_map, fieldOfSel_isSome]
    simp [h]
  · rw [decode_getf_op h, exists_selected_ok, Option.isSome_map, fieldOfSel_isSome]
    simp [h]
  · simp [decode_getat_op h, h]
  · rw [decode_rdst_op h, exists_selected_ok, rdstOfSel_isSome]
    simp [h]
  · rw [decode_rdspec_op h, exists_selected_ok, Option.isSome_map, fieldOfSel_isSome]
    simp [h]
  · simp [decode_reserved_op h, h]

theorem decode_error_of_illegalWord {c : CmdWord} (h : IllegalWord c) : ∃ e, decode c = .error e := by
  cases hc : decode c with
  | error e => exact ⟨e, rfl⟩
  | ok i => exact absurd h ((exists_decode_ok_iff c).mp ⟨i, hc⟩)

/-- An illegal word enters the IllegalCommand fault in every state (60_exceptions.md R169). -/
theorem acceptCommand_of_illegalWord {c : CmdWord} (h : IllegalWord c) (s : State) :
    acceptCommand c s = .next (s.raiseIllegal c) := by
  obtain ⟨e, he⟩ := decode_error_of_illegalWord h
  exact acceptCommand_of_decode_error he s

/-- Settles O2: a split on op says which words decode, and an illegal word goes through the one fault entry. -/
theorem decodingIsTotal : Obligations.DecodingIsTotal :=
  ⟨exists_decode_ok_iff, fun c s h =>
    ⟨s.raiseIllegal c, acceptCommand_of_illegalWord h s, State.raiseIllegal_entered s c⟩⟩

/-! ### Words under a row's mask (R67) -/

theorem cmdWord_inj {op op' sel sel' : BitVec 4} {d d' : Word} :
    cmdWord op sel d = cmdWord op' sel' d' ↔ op = op' ∧ sel = sel' ∧ d = d' := by
  constructor
  · intro h
    exact ⟨by simpa using congrArg cmdOp h, by simpa using congrArg cmdSel h, by simpa using congrArg cmdData h⟩
  · rintro ⟨rfl, rfl, rfl⟩
    rfl

/-- A mask that leaves data out reads op and sel each under its part. -/
theorem and_mask_eq_iff (c : CmdWord) (mop msel op sel : BitVec 4) :
    c &&& cmdWord mop msel 0 = cmdWord op sel 0 ↔ cmdOp c &&& mop = op ∧ cmdSel c &&& msel = sel := by
  have hand : c &&& cmdWord mop msel 0 = cmdWord (cmdOp c &&& mop) (cmdSel c &&& msel) 0 := by
    conv_lhs => rw [← cmdWord_fields c]
    simp only [cmdWord]
    exact BitVec.and_append.trans (congrArg₂ _ BitVec.and_append BitVec.and_zero)
  rw [hand, cmdWord_inj, and_iff_left rfl]

theorem and_nibbleMask (x : BitVec 4) : x &&& 0xF = x := BitVec.and_allOnes

/-- The rows of NOP, CLR, LDW, STW and GETAT fix op. -/
theorem and_opMask_eq_iff (c : CmdWord) (op : BitVec 4) :
    c &&& 0xF000000000#40 = cmdWord op 0 0 ↔ cmdOp c = op := by
  have h := and_mask_eq_iff c 0xF 0 op 0
  rw [and_nibbleMask, and_iff_left (show cmdSel c &&& 0 = 0 from BitVec.and_zero)] at h
  exact h

/-- The rows of SETF, GETF, RDST and RDSPEC fix op and sel. -/
theorem and_opSelMask_eq_iff (c : CmdWord) (op sel : BitVec 4) :
    c &&& 0xFF00000000#40 = cmdWord op sel 0 ↔ cmdOp c = op ∧ cmdSel c = sel := by
  have h := and_mask_eq_iff c 0xF 0xF op sel
  rw [and_nibbleMask, and_nibbleMask] at h
  exact h

/-- The rows of LDB and STB fix op and sel[3:2]: they admit the four lanes. -/
theorem and_laneMask_eq_iff (c : CmdWord) (op : BitVec 4) :
    c &&& 0xFC00000000#40 = cmdWord op 0 0 ↔ cmdOp c = op ∧ (cmdSel c).toNat < 4 := by
  have hsel : ∀ sel : BitVec 4, sel &&& 0xC = 0 ↔ sel.toNat < 4 := by decide
  have h := and_mask_eq_iff c 0xF 0xC op 0
  rw [and_nibbleMask, hsel] at h
  exact h

/-! ### The rows that select (R62) -/

theorem fieldOfSel_eq_some_iff {sel : BitVec 4} {f : FieldIdx} :
    fieldOfSel sel = some f ↔ sel = (fieldIndex f).setWidth 4 := by
  cases f <;> revert sel <;> decide

theorem opcodeRow_setf (f : FieldIdx) (v : Word) :
    opcodeRow (.setf f v) = (cmdWord 0x6 ((fieldIndex f).setWidth 4) 0, 0xFF00000000#40) := by
  cases f <;> rfl

theorem opcodeRow_getf (f : FieldIdx) :
    opcodeRow (.getf f) = (cmdWord 0x7 ((fieldIndex f).setWidth 4) 0, 0xFF00000000#40) := by
  cases f <;> rfl

theorem opcodeRow_rdspec (f : FieldIdx) :
    opcodeRow (.rdspec f) = (cmdWord 0xA ((fieldIndex f).setWidth 4) 0, 0xFF00000000#40) := by
  cases f <;> rfl

theorem opcodeRow_rdst {sel : BitVec 4} {i : Instr} (h : rdstOfSel sel = some i) :
    opcodeRow i = (cmdWord 0x9 sel 0, 0xFF00000000#40) := by
  have hrow : ∀ sel, ∀ j ∈ rdstOfSel sel, opcodeRow j = (cmdWord 0x9 sel 0, 0xFF00000000#40) := by decide
  exact hrow sel i h

theorem laneOfSel_cmdSel {c : CmdWord} (h : (cmdSel c).toNat < 4) :
    laneOfSel (cmdSel c) = some (c.extractLsb' 32 2) := by
  rw [laneOfSel, if_pos h, cmdSel, BitVec.setWidth_extractLsb'_of_le (by decide)]

theorem cmdData_lowByte (c : CmdWord) : (cmdData c).setWidth 8 = c.extractLsb' 0 8 :=
  BitVec.setWidth_extractLsb'_of_le (by decide)

/-! ### A word that matches a row is the row's command (R67) -/

theorem rowDecodes_nop : RowDecodes 0x0000000000 0xF000000000 fun _ => .nop :=
  fun c h => decode_nop_op ((and_opMask_eq_iff c 0x0).mp h)

theorem rowDecodes_clr : RowDecodes 0x1000000000 0xF000000000 fun _ => .clr :=
  fun c h => decode_clr_op ((and_opMask_eq_iff c 0x1).mp h)

theorem rowDecodes_ldw : RowDecodes 0x2000000000 0xF000000000 fun c => .ldw (cmdData c) :=
  fun c h => decode_ldw_op ((and_opMask_eq_iff c 0x2).mp h)

theorem rowDecodes_stw : RowDecodes 0x3000000000 0xF000000000 fun _ => .stw :=
  fun c h => decode_stw_op ((and_opMask_eq_iff c 0x3).mp h)

theorem rowDecodes_getat : RowDecodes 0x8000000000 0xF000000000 fun _ => .getat :=
  fun c h => decode_getat_op ((and_opMask_eq_iff c 0x8).mp h)

theorem rowDecodes_ldb :
    RowDecodes 0x4000000000 0xFC00000000 fun c => .ldb (c.extractLsb' 32 2) (c.extractLsb' 0 8) := by
  intro c h
  obtain ⟨hop, hsel⟩ := (and_laneMask_eq_iff c 0x4).mp h
  rw [decode_ldb_op hop, laneOfSel_cmdSel hsel, cmdData_lowByte]
  rfl

theorem rowDecodes_stb : RowDecodes 0x5000000000 0xFC00000000 fun c => .stb (c.extractLsb' 32 2) := by
  intro c h
  obtain ⟨hop, hsel⟩ := (and_laneMask_eq_iff c 0x5).mp h
  rw [decode_stb_op hop, laneOfSel_cmdSel hsel]
  rfl

theorem rowDecodes_setf (f : FieldIdx) :
    RowDecodes (opcodeRow (.setf f 0)).1 (opcodeRow (.setf f 0)).2 fun c => .setf f (cmdData c) := by
  intro c h
  rw [opcodeRow_setf] at h
  obtain ⟨hop, hsel⟩ := (and_opSelMask_eq_iff c 0x6 _).mp h
  rw [decode_setf_op hop, fieldOfSel_eq_some_iff.mpr hsel]
  rfl

theorem rowDecodes_getf (f : FieldIdx) :
    RowDecodes (opcodeRow (.getf f)).1 (opcodeRow (.getf f)).2 fun _ => .getf f := by
  intro c h
  rw [opcodeRow_getf] at h
  obtain ⟨hop, hsel⟩ := (and_opSelMask_eq_iff c 0x7 _).mp h
  rw [decode_getf_op hop, fieldOfSel_eq_some_iff.mpr hsel]
  rfl

theorem rowDecodes_rdspec (f : FieldIdx) :
    RowDecodes (opcodeRow (.rdspec f)).1 (opcodeRow (.rdspec f)).2 fun _ => .rdspec f := by
  intro c h
  rw [opcodeRow_rdspec] at h
  obtain ⟨hop, hsel⟩ := (and_opSelMask_eq_iff c 0xA _).mp h
  rw [decode_rdspec_op hop, fieldOfSel_eq_some_iff.mpr hsel]
  rfl

theorem rowDecodes_rdst {sel : BitVec 4} {i : Instr} (hi : rdstOfSel sel = some i) :
    RowDecodes (opcodeRow i).1 (opcodeRow i).2 fun _ => i := by
  intro c h
  rw [opcodeRow_rdst hi] at h
  obtain ⟨hop, hsel⟩ := (and_opSelMask_eq_iff c 0x9 _).mp h
  rw [decode_rdst_op hop, hsel, hi]
  rfl

/-- Every row of the table decodes, and to a command of that row. -/
theorem exists_decode_of_row {c : CmdWord} {j : Instr} (h : c &&& (opcodeRow j).2 = (opcodeRow j).1) :
    ∃ i, decode c = .ok i ∧ opcodeRow i = opcodeRow j := by
  cases j
  case nop => exact ⟨_, rowDecodes_nop c h, rfl⟩
  case clr => exact ⟨_, rowDecodes_clr c h, rfl⟩
  case ldw => exact ⟨_, rowDecodes_ldw c h, rfl⟩
  case stw => exact ⟨_, rowDecodes_stw c h, rfl⟩
  case ldb => exact ⟨_, rowDecodes_ldb c h, rfl⟩
  case stb => exact ⟨_, rowDecodes_stb c h, rfl⟩
  case setfExtra => exact ⟨_, rowDecodes_setf .extra c h, rfl⟩
  case setfNframes => exact ⟨_, rowDecodes_setf .nframes c h, rfl⟩
  case setfAtype => exact ⟨_, rowDecodes_setf .atype c h, rfl⟩
  case setfOffx => exact ⟨_, rowDecodes_setf .offx c h, rfl⟩
  case setfOffy => exact ⟨_, rowDecodes_setf .offy c h, rfl⟩
  case setfAspeed => exact ⟨_, rowDecodes_setf .aspeed c h, rfl⟩
  case getfExtra => exact ⟨_, rowDecodes_getf .extra c h, rfl⟩
  case getfNframes => exact ⟨_, rowDecodes_getf .nframes c h, rfl⟩
  case getfAtype => exact ⟨_, rowDecodes_getf .atype c h, rfl⟩
  case getfOffx => exact ⟨_, rowDecodes_getf .offx c h, rfl⟩
  case getfOffy => exact ⟨_, rowDecodes_getf .offy c h, rfl⟩
  case getfAspeed => exact ⟨_, rowDecodes_getf .aspeed c h, rfl⟩
  case getat => exact ⟨_, rowDecodes_getat c h, rfl⟩
  case rdstStatus => exact ⟨_, rowDecodes_rdst (sel := 0) rfl c h, rfl⟩
  case rdstEval => exact ⟨_, rowDecodes_rdst (sel := 1) rfl c h, rfl⟩
  case rdstEmin => exact ⟨_, rowDecodes_rdst (sel := 2) rfl c h, rfl⟩
  case rdstEmax => exact ⟨_, rowDecodes_rdst (sel := 3) rfl c h, rfl⟩
  case rdspecExtra => exact ⟨_, rowDecodes_rdspec .extra c h, rfl⟩
  case rdspecNframes => exact ⟨_, rowDecodes_rdspec .nframes c h, rfl⟩
  case rdspecAtype => exact ⟨_, rowDecodes_rdspec .atype c h, rfl⟩
  case rdspecOffx => exact ⟨_, rowDecodes_rdspec .offx c h, rfl⟩
  case rdspecOffy => exact ⟨_, rowDecodes_rdspec .offy c h, rfl⟩
  case rdspecAspeed => exact ⟨_, rowDecodes_rdspec .aspeed c h, rfl⟩

/-! ### A decoded word matches its command's row (R67) -/

theorem row_of_decode_ok {c : CmdWord} {i : Instr} (hd : decode c = .ok i) :
    c &&& (opcodeRow i).2 = (opcodeRow i).1 := by
  obtain h | h | h | h | h | h | h | h | h | h | h | h := op_cases (cmdOp c)
  · obtain rfl : Instr.nop = i := by simpa [decode_nop_op h] using hd
    exact (and_opMask_eq_iff c 0x0).mpr h
  · obtain rfl : Instr.clr = i := by simpa [decode_clr_op h] using hd
    exact (and_opMask_eq_iff c 0x1).mpr h
  · obtain rfl : Instr.ldw (cmdData c) = i := by simpa [decode_ldw_op h] using hd
    exact (and_opMask_eq_iff c 0x2).mpr h
  · obtain rfl : Instr.stw = i := by simpa [decode_stw_op h] using hd
    exact (and_opMask_eq_iff c 0x3).mpr h
  · rw [decode_ldb_op h, selected_eq_ok, Option.map_eq_some_iff] at hd
    obtain ⟨k, hk, rfl⟩ := hd
    exact (and_laneMask_eq_iff c 0x4).mpr ⟨h, (laneOfSel_isSome _).mp (Option.isSome_of_eq_some hk)⟩
  · rw [decode_stb_op h, selected_eq_ok, Option.map_eq_some_iff] at hd
    obtain ⟨k, hk, rfl⟩ := hd
    exact (and_laneMask_eq_iff c 0x5).mpr ⟨h, (laneOfSel_isSome _).mp (Option.isSome_of_eq_some hk)⟩
  · rw [decode_setf_op h, selected_eq_ok, Option.map_eq_some_iff] at hd
    obtain ⟨f, hf, rfl⟩ := hd
    rw [opcodeRow_setf]
    exact (and_opSelMask_eq_iff c 0x6 _).mpr ⟨h, fieldOfSel_eq_some_iff.mp hf⟩
  · rw [decode_getf_op h, selected_eq_ok, Option.map_eq_some_iff] at hd
    obtain ⟨f, hf, rfl⟩ := hd
    rw [opcodeRow_getf]
    exact (and_opSelMask_eq_iff c 0x7 _).mpr ⟨h, fieldOfSel_eq_some_iff.mp hf⟩
  · obtain rfl : Instr.getat = i := by simpa [decode_getat_op h] using hd
    exact (and_opMask_eq_iff c 0x8).mpr h
  · rw [decode_rdst_op h, selected_eq_ok] at hd
    rw [opcodeRow_rdst hd]
    exact (and_opSelMask_eq_iff c 0x9 _).mpr ⟨h, rfl⟩
  · rw [decode_rdspec_op h, selected_eq_ok, Option.map_eq_some_iff] at hd
    obtain ⟨f, hf, rfl⟩ := hd
    rw [opcodeRow_rdspec]
    exact (and_opSelMask_eq_iff c 0xA _).mpr ⟨h, fieldOfSel_eq_some_iff.mp hf⟩
  · rw [decode_reserved_op h] at hd
    cases hd

/-! ### Ignored bits (R67) -/

theorem decode_ignores_sel_and_data (op sel sel' : BitVec 4) (d d' : Word)
    (hop : op = 0x0 ∨ op = 0x1 ∨ op = 0x3 ∨ op = 0x8) :
    decode (cmdWord op sel d) = decode (cmdWord op sel' d') := by
  obtain rfl | rfl | rfl | rfl := hop
  · simp [decode_nop_op]
  · simp [decode_clr_op]
  · simp [decode_stw_op]
  · simp [decode_getat_op]

theorem decode_ldw_ignores_sel (sel sel' : BitVec 4) (d : Word) :
    decode (cmdWord 0x2 sel d) = decode (cmdWord 0x2 sel' d) := by
  simp [decode_ldw_op]

theorem decode_ignores_data (op sel : BitVec 4) (d d' : Word)
    (hop : op = 0x5 ∨ op = 0x7 ∨ op = 0x9 ∨ op = 0xA) :
    decode (cmdWord op sel d) = decode (cmdWord op sel d') := by
  obtain rfl | rfl | rfl | rfl := hop
  · simp [decode_stb_op]
  · simp [decode_getf_op]
  · simp [decode_rdst_op]
  · simp [decode_rdspec_op]

theorem decode_ldb_reads_low_byte (sel : BitVec 4) (d d' : Word) (hd : d.extractLsb' 0 8 = d'.extractLsb' 0 8) :
    decode (cmdWord 0x4 sel d) = decode (cmdWord 0x4 sel d') := by
  simp [decode_ldb_op, BitVec.setWidth_eq_extractLsb', hd]

/-- Settles O3: each row fixes op and what of sel its command reads, so its words are the ones the decoder answers with that
command; the decoder's equation of each op shows the bits it does not read. -/
theorem decoderReadsTheTablesBits : Obligations.DecoderReadsTheTablesBits :=
  ⟨fun _ _ => row_of_decode_ok, fun _ _ => exists_decode_of_row, decode_ignores_sel_and_data, decode_ldw_ignores_sel,
    decode_ignores_data, decode_ldb_reads_low_byte⟩

end Sys2Proof.Machine
end

section
/-! SUPPORT. The field functions (40_field_functions.md): the extractor's formulas, the insert lane as a placed truncation, the
merge as the word of a state whose registers hold the truncations, and the little-endian maps. -/

namespace Sys2Proof.Machine

/-- The bounds of 00_scope.md R6 at their values. -/
theorem FieldSpec.wellFormed_iff (sp : FieldSpec) :
    sp.wellFormed = true ↔
      1 ≤ sp.bitSize ∧ sp.bitSize ≤ 32 ∧ sp.bitOffset ≤ 31 ∧ sp.bitOffset + sp.bitSize ≤ 32 := by
  simp [FieldSpec.wellFormed, and_assoc]

/-! ### The extractor and its formulas (R80 to R86) -/

theorem unpack_congr {sp : FieldSpec} {w w' : Word}
    (h : w'.extractLsb' sp.bitOffset sp.bitSize = w.extractLsb' sp.bitOffset sp.bitSize) : unpack w' sp = unpack w sp := by
  simp only [unpack, rawField_eq_toNat, h]

theorem inRange_iff (v : Int) (sp : FieldSpec) : inRange v sp = true ↔ specMin sp ≤ v ∧ v ≤ specMax sp := by
  simp [inRange]

/-- Settles O34: the extractor's signed and unsigned reading, its bounds, and its dependence on the slice alone, which hold
of every row. -/
theorem unpackReadsTheFieldsBits : Obligations.UnpackReadsTheFieldsBits := by
  intro sp w _
  obtain ⟨hmin, hmax⟩ := (inRange_iff _ sp).mp (unpack_inRange w sp)
  refine ⟨?_, hmin, hmax, fun w' => unpack_congr⟩
  cases h : sp.signed
  · exact unpack_of_unsigned h w
  · exact unpack_of_signed h w

/-- `(word >> bitOffset) & mask` on words, whatever literal the mask is written as. -/
theorem toNat_ushiftRight_and_mask {sp : FieldSpec} {m : Word} (hm : m.toNat = specMask sp) (w : Word) :
    ((w >>> sp.bitOffset) &&& m).toNat = (w.extractLsb' sp.bitOffset sp.bitSize).toNat := by
  rw [BitVec.toNat_and, hm, ← rawField_eq_toNat, rawField]

/-- The sign test needs no mask: the sign bit is the slice's top bit. -/
theorem ushiftRight_and_signBit_ne_zero {sp : FieldSpec} {b : Word} (hsize : 0 < sp.bitSize)
    (hb : b.toNat = specSignBit sp) (w : Word) :
    (w >>> sp.bitOffset) &&& b ≠ 0 ↔ (w.extractLsb' sp.bitOffset sp.bitSize).msb = true := by
  have hbit : (w.extractLsb' sp.bitOffset sp.bitSize).msb = (w >>> sp.bitOffset).getLsbD (sp.bitSize - 1) := by
    rw [BitVec.msb_eq_getLsbD_last, BitVec.getLsbD_extractLsb', BitVec.getLsbD_ushiftRight,
      decide_eq_true (Nat.sub_one_lt_of_lt hsize), Bool.true_and]
  rw [Ne, ← BitVec.toNat_inj, BitVec.toNat_and, hb, specSignBit, Nat.and_two_pow, BitVec.testBit_toNat, hbit]
  cases (w >>> sp.bitOffset).getLsbD (sp.bitSize - 1) <;> simp

theorem unpack_eq_shift_and_mask {sp : FieldSpec} {m : Word} (h : sp.signed = false) (hm : m.toNat = specMask sp)
    (w : Word) : unpack w sp = (((w >>> sp.bitOffset) &&& m).toNat : Int) := by
  rw [unpack_of_unsigned h, toNat_ushiftRight_and_mask hm]

theorem unpack_eq_sign_decode {sp : FieldSpec} {m b : Word} (h : sp.signed = true) (hsize : 0 < sp.bitSize)
    (hm : m.toNat = specMask sp) (hb : b.toNat = specSignBit sp) (w : Word) :
    unpack w sp =
      if (w >>> sp.bitOffset) &&& b ≠ 0 then (((w >>> sp.bitOffset) &&& m).toNat : Int) - (2 ^ sp.bitSize : Nat)
      else (((w >>> sp.bitOffset) &&& m).toNat : Int) := by
  simp only [ushiftRight_and_signBit_ne_zero hsize hb, toNat_ushiftRight_and_mask hm, unpack_of_signed h,
    BitVec.toInt_eq_msb_cond]

/-- Settles O35: each fixed extractor is unpack with its row, and the two readings and two formulas of unpack at that row. -/
theorem fixedExtractorsAreTheFormulas : Obligations.FixedExtractorsAreTheFormulas := fun w =>
  ⟨⟨unpack_of_unsigned (sp := fieldSpec .extra) rfl w, unpack_eq_shift_and_mask (sp := fieldSpec .extra) rfl rfl w, rfl⟩,
   ⟨unpack_of_unsigned (sp := fieldSpec .nframes) rfl w, unpack_eq_shift_and_mask (sp := fieldSpec .nframes) rfl rfl w, rfl⟩,
   ⟨unpack_of_unsigned (sp := fieldSpec .atype) rfl w, unpack_eq_shift_and_mask (sp := fieldSpec .atype) rfl rfl w, rfl⟩,
   ⟨unpack_of_signed (sp := fieldSpec .offx) rfl w,
    unpack_eq_sign_decode (sp := fieldSpec .offx) rfl (by decide) rfl rfl w, rfl⟩,
   ⟨unpack_of_signed (sp := fieldSpec .offy) rfl w,
    unpack_eq_sign_decode (sp := fieldSpec .offy) rfl (by decide) rfl rfl w, rfl⟩,
   ⟨unpack_of_unsigned (sp := fieldSpec .aspeed) rfl w, unpack_eq_shift_and_mask (sp := fieldSpec .aspeed) rfl rfl w, rfl⟩⟩

/-! ### The insert lane (R87 to R93) -/

/-- The lane is the value's truncation at the field's place. -/
theorem lane_eq_placed (v : Int) (sp : FieldSpec) :
    lane v sp = (BitVec.ofInt sp.bitSize v).setWidth 32 <<< sp.bitOffset := by
  rw [lane, ← BitVec.ofNat_toNat, BitVec.toNat_ofInt, Nat.cast_pow, Nat.cast_ofNat]

theorem maskInPlace_eq_placed (sp : FieldSpec) :
    maskInPlace sp = (BitVec.allOnes sp.bitSize).setWidth 32 <<< sp.bitOffset := by
  rw [maskInPlace, ← BitVec.ofNat_toNat, BitVec.toNat_allOnes, specMask]

theorem lane_and_maskInPlace (v : Int) (sp : FieldSpec) : lane v sp &&& maskInPlace sp = lane v sp := by
  rw [lane_eq_placed, maskInPlace_eq_placed, ← BitVec.shiftLeft_and_distrib, ← BitVec.setWidth_and, BitVec.and_allOnes]

/-- A lane has no bit in a word its mask in place has none in. -/
theorem lane_and_eq_zero {sp : FieldSpec} {m : Word} (h : maskInPlace sp &&& m = 0) (v : Int) : lane v sp &&& m = 0 := by
  rw [← lane_and_maskInPlace, BitVec.and_assoc, h]
  exact BitVec.and_zero

theorem lane_slice {sp : FieldSpec} (h : sp.bitOffset + sp.bitSize ≤ 32) (v : Int) :
    (lane v sp).extractLsb' sp.bitOffset sp.bitSize = BitVec.ofInt sp.bitSize v := by
  apply BitVec.eq_of_getLsbD_eq
  intro k hk
  rw [lane_eq_placed]
  simp [hk, show sp.bitOffset + k < 32 by omega]

/-- Truncating a port value keeps its low bits, signed or not. -/
theorem ofInt_toInt_eq_lowBits {n : Nat} (h : n ≤ 32) (d : Word) : BitVec.ofInt n d.toInt = d.extractLsb' 0 n := by
  rw [← BitVec.setWidth_eq_extractLsb' h, ← BitVec.signExtend_eq_setWidth_of_le d h, BitVec.signExtend]

/-- Settles O36: the lane is the truncation at the field's place, so its slice is the truncation and the mask in place covers
it. -/
theorem laneHoldsTheTruncatedValue : Obligations.LaneHoldsTheTruncatedValue := by
  intro sp v hwf
  obtain ⟨-, hsize, -, hend⟩ := (FieldSpec.wellFormed_iff sp).mp hwf
  refine ⟨lane_slice hend v, lane_and_eq_zero (BitVec.and_not_self _) v, fun d => ?_⟩
  rw [lane_slice hend, ofInt_toInt_eq_lowBits hsize]

/-- Settles O37: the slice and the zero bits of lane at each row of SPECS, whose mask in place is a literal. -/
theorem fixedLanesAreTheFormulas : Obligations.FixedLanesAreTheFormulas := fun v =>
  ⟨⟨rfl, lane_slice (sp := fieldSpec .extra) (by decide) v, lane_and_eq_zero (by decide) v⟩,
   ⟨rfl, lane_slice (sp := fieldSpec .nframes) (by decide) v, lane_and_eq_zero (by decide) v⟩,
   ⟨rfl, lane_slice (sp := fieldSpec .atype) (by decide) v, lane_and_eq_zero (by decide) v⟩,
   ⟨rfl, lane_slice (sp := fieldSpec .offx) (by decide) v, lane_and_eq_zero (by decide) v⟩,
   ⟨rfl, lane_slice (sp := fieldSpec .offy) (by decide) v, lane_and_eq_zero (by decide) v⟩,
   ⟨rfl, lane_slice (sp := fieldSpec .aspeed) (by decide) v, lane_and_eq_zero (by decide) v⟩⟩

/-! ### The merge (R94, R100) -/

/-- "each word bit is driven by exactly one lane". -/
theorem maskInPlace_and_maskInPlace {i j : FieldIdx} (h : i ≠ j) :
    maskInPlace (fieldSpec i) &&& maskInPlace (fieldSpec j) = 0 := by
  revert h
  cases i <;> cases j <;> decide

theorem lane_and_lane {i j : FieldIdx} (h : i ≠ j) (u v : Int) : lane u (fieldSpec i) &&& lane v (fieldSpec j) = 0 := by
  refine lane_and_eq_zero ?_ u
  rw [BitVec.and_comm]
  exact lane_and_eq_zero (maskInPlace_and_maskInPlace h.symm) v

/-- Words that share no bit add without a carry. -/
theorem foldl_or_eq_foldl_add {a : Word} {ws : List Word} (h : (a :: ws).Pairwise (· &&& · = 0)) :
    ws.foldl (· ||| ·) a = ws.foldl (· + ·) a := by
  induction ws generalizing a with
  | nil => rfl
  | cons b ws ih =>
    simp only [List.pairwise_cons] at h
    obtain ⟨ha, hb, hws⟩ := h
    have hab : a + b = a ||| b := BitVec.add_eq_or_of_and_eq_zero a b (ha b List.mem_cons_self)
    rw [List.foldl_cons, List.foldl_cons, hab]
    refine ih (List.pairwise_cons.mpr ⟨fun c hc => ?_, hws⟩)
    rw [BitVec.and_or_distrib_right, ha c (List.mem_cons_of_mem b hc), hb c hc, BitVec.or_self]

/-- The reset state with the truncation of each value in its register. -/
def State.ofValues (v : FieldIdx → Int) : State :=
  { State.reset with
    extra   := BitVec.ofInt _ (v .extra)
    nframes := BitVec.ofInt _ (v .nframes)
    atype   := BitVec.ofInt _ (v .atype)
    offx    := BitVec.ofInt _ (v .offx)
    offy    := BitVec.ofInt _ (v .offy)
    aspeed  := BitVec.ofInt _ (v .aspeed) }

/-- pack of one value per field. -/
abbrev packOf (v : FieldIdx → Int) : Word :=
  pack (v .extra) (v .nframes) (v .atype) (v .offx) (v .offy) (v .aspeed)

theorem State.ofValues_field (v : FieldIdx → Int) (i : FieldIdx) :
    (State.ofValues v).field i = BitVec.ofInt (fieldSpec i).bitSize (v i) := by
  cases i <;> rfl

/-- A register at its place is the insert lane of the value it holds truncated. -/
theorem State.ofValues_placed (v : FieldIdx → Int) (i : FieldIdx) :
    (State.ofValues v).placed i = lane (v i) (fieldSpec i) := by
  rw [State.placed, State.ofValues_field, lane_eq_placed]

/-- The merge is the packed word of the registers that hold the truncated values. -/
theorem State.ofValues_word (v : FieldIdx → Int) : (State.ofValues v).word = packOf v := by
  simp only [State.word, State.ofValues_placed]
  rfl

theorem fieldSlice_packOf (v : FieldIdx → Int) (i : FieldIdx) :
    fieldSlice (packOf v) i = BitVec.ofInt (fieldSpec i).bitSize (v i) := by
  rw [← State.ofValues_word, ← State.field_eq_fieldSlice, State.ofValues_field]

/-- A field that holds a value's truncation reads as the value exactly when the value is in range. -/
theorem unpack_eq_iff_inRange {w : Word} {sp : FieldSpec} {v : Int} (hsize : 0 < sp.bitSize)
    (h : w.extractLsb' sp.bitOffset sp.bitSize = BitVec.ofInt sp.bitSize v) :
    unpack w sp = v ↔ inRange v sp = true := by
  refine ⟨fun hv => hv ▸ unpack_inRange w sp, fun hv => ?_⟩
  obtain ⟨hmin, hmax⟩ := (inRange_iff v sp).mp hv
  cases hs : sp.signed
  · rw [specMin, hs, if_neg Bool.false_ne_true] at hmin
    rw [specMax, hs, if_neg Bool.false_ne_true, specMask, Nat.cast_pred (Nat.two_pow_pos _)] at hmax
    rw [unpack_of_unsigned hs, h, BitVec.toNat_ofInt, Int.emod_eq_of_lt hmin (Int.lt_of_le_sub_one hmax),
      Int.toNat_of_nonneg hmin]
  · rw [specMin, if_pos hs] at hmin
    rw [specMax, if_pos hs] at hmax
    rw [unpack_of_signed hs, h, BitVec.toInt_ofInt_eq_self hsize hmin (Int.lt_of_le_sub_one hmax)]

theorem fieldSpec_bitSize_pos (i : FieldIdx) : 0 < (fieldSpec i).bitSize := by
  cases i <;> decide

theorem unpack_packOf_eq_iff (v : FieldIdx → Int) (i : FieldIdx) :
    unpack (packOf v) (fieldSpec i) = v i ↔ Accepts i (v i) := by
  rw [unpack_eq_iff_inRange (fieldSpec_bitSize_pos i) (fieldSlice_packOf v i), inRange_iff_accepts]

/-- Six arguments in the order of pack, by field. -/
def fieldArgs (e n t x y s : Int) : FieldIdx → Int
  | .extra   => e
  | .nframes => n
  | .atype   => t
  | .offx    => x
  | .offy    => y
  | .aspeed  => s

theorem lanes_pairwise_disjoint (v : FieldIdx → Int) :
    ([.extra, .nframes, .atype, .offx, .offy, .aspeed].map fun i => lane (v i) (fieldSpec i)).Pairwise
      (· &&& · = 0) := by
  have hne : [FieldIdx.extra, .nframes, .atype, .offx, .offy, .aspeed].Pairwise (· ≠ ·) := by decide
  exact List.pairwise_map.mpr (hne.imp fun hij => lane_and_lane hij _ _)

theorem pack_eq_sum (e n t x y s : Int) :
    pack e n t x y s = laneExtra e + laneNframes n + laneAtype t + laneOffx x + laneOffy y + laneAspeed s :=
  foldl_or_eq_foldl_add (lanes_pairwise_disjoint (fieldArgs e n t x y s))

theorem pack_eq_append (e n t x y s : Int) :
    pack e n t x y s =
      BitVec.ofInt 4 s ++ BitVec.ofInt 8 y ++ BitVec.ofInt 8 x ++ BitVec.ofInt 2 t ++ BitVec.ofInt 6 n ++
        BitVec.ofInt 4 e :=
  (State.ofValues_word (fieldArgs e n t x y s)).symm.trans (State.word_eq_append _)

/-- Extracting from the merge gives all six arguments back exactly when all six are in range. -/
theorem ext_pack_eq_iff (e n t x y s : Int) :
    (extExtra (pack e n t x y s) = e ∧ extNframes (pack e n t x y s) = n ∧ extAtype (pack e n t x y s) = t ∧
        extOffx (pack e n t x y s) = x ∧ extOffy (pack e n t x y s) = y ∧ extAspeed (pack e n t x y s) = s) ↔
      (Accepts .extra e ∧ Accepts .nframes n ∧ Accepts .atype t ∧ Accepts .offx x ∧ Accepts .offy y ∧
        Accepts .aspeed s) := by
  have h := unpack_packOf_eq_iff (fieldArgs e n t x y s)
  exact and_congr (h .extra) (and_congr (h .nframes) (and_congr (h .atype) (and_congr (h .offx)
    (and_congr (h .offy) (h .aspeed)))))

/-- Settles O38: pack is the OR by definition, the sum because the lanes share no bit, and the concatenation because it is the
packed word of the registers holding the truncations, which extract to the arguments exactly when these are in range. -/
theorem packIsTheMergeOfTheLanes : Obligations.PackIsTheMergeOfTheLanes := fun e n t x y s =>
  ⟨rfl, pack_eq_sum e n t x y s, pack_eq_append e n t x y s, ext_pack_eq_iff e n t x y s⟩

/-- Settles O39: the range checks are the accept sets, for which the merge extracts to its arguments. -/
theorem valuesRoundTripThroughTheWord : Obligations.ValuesRoundTripThroughTheWord := by
  intro e n t x y s he hn ht hx hy hs
  exact (ext_pack_eq_iff e n t x y s).mpr
    ⟨(inRange_iff_accepts .extra e).mp he, (inRange_iff_accepts .nframes n).mp hn, (inRange_iff_accepts .atype t).mp ht,
      (inRange_iff_accepts .offx x).mp hx, (inRange_iff_accepts .offy y).mp hy, (inRange_iff_accepts .aspeed s).mp hs⟩

/-! ### The little-endian maps (R98, R99) -/

theorem byteOf_eq_slice (w : Word) (k : BitVec 2) : byteOf w k = w.extractLsb' (8 * k.toNat) 8 :=
  BitVec.setWidth_ushiftRight_eq_extractLsb

theorem leBytes_eq_byteOf (w : Word) : leBytes w = (byteOf w 0, byteOf w 1, byteOf w 2, byteOf w 3) := by
  simp only [byteOf_eq_slice]
  rfl

/-- Adjoining slices join: the four bytes, last highest, are the word. -/
theorem fromLeBytes_leBytes (w : Word) :
    fromLeBytes (leBytes w).1 (leBytes w).2.1 (leBytes w).2.2.1 (leBytes w).2.2.2 = w := by
  simp only [fromLeBytes, leBytes]
  rw [BitVec.extractLsb'_append_extractLsb'_eq_extractLsb' (by decide),
    BitVec.extractLsb'_append_extractLsb'_eq_extractLsb' (by decide),
    BitVec.extractLsb'_append_extractLsb'_eq_extractLsb' (by decide)]
  exact BitVec.extractLsb'_eq_self

/-- Each byte stands above the ones before it in the stream. -/
theorem leBytes_fromLeBytes (b0 b1 b2 b3 : Byte) : leBytes (fromLeBytes b0 b1 b2 b3) = (b0, b1, b2, b3) := by
  simp (disch := decide) only [leBytes, fromLeBytes, BitVec.extractLsb'_append_eq_of_le, Nat.sub_self,
    BitVec.extractLsb'_append_eq_right, BitVec.extractLsb'_eq_self]

/-- Settles O46: the slices of le_bytes are the byte lanes, and cutting into bytes and joining undo each other. -/
theorem littleEndianMapsAreInverse : Obligations.LittleEndianMapsAreInverse :=
  ⟨fun w => ⟨leBytes_eq_byteOf w, fromLeBytes_leBytes w⟩, leBytes_fromLeBytes⟩

end Sys2Proof.Machine
end

section
/-! SUPPORT. The unpack-direction commands (41_unpack_ops.md): commands that only answer, a list of LDBs as lane writes, the
word as its byte lanes, and the settled statements on LDW, LDB and GETF. -/

namespace Sys2Proof.Machine

/-! ### LDW (R110) -/

theorem exec_ldw (w : Word) (s : State) : exec (.ldw w) s = .next ((s.setWord w).respond 0) := rfl

/-- Settles O22: LDW is the write of all six slices, and a field's value is the extractor of the word they pack to. -/
theorem ldwUnpacksTheWord : Obligations.LdwUnpacksTheWord := by
  refine ⟨rowDecodes_ldw, fun w s => ?_⟩
  have hword : ((s.setWord w).respond 0).word = w := s.word_setWord w
  exact ⟨_, exec_ldw w s, ⟨rfl, rfl, rfl, rfl, rfl, rfl⟩, hword, fun i => by rw [State.val_eq_unpack, hword],
    ⟨rfl, rfl, rfl, rfl⟩, rfl, rfl⟩

/-! ### LDB (R111) -/

theorem exec_ldb (k : BitVec 2) (b : Byte) (s : State) : exec (.ldb k b) s = .next ((s.memWrite k b).respond 0) := rfl

@[simp] theorem State.memRead_respond (s : State) (d : Word) (k : BitVec 2) : (s.respond d).memRead k = s.memRead k := rfl

/-- An LDB whose selector is no lane is an illegal word (30_encoding.md R64, R66). -/
theorem illegalWord_of_ldb_sel {c : CmdWord} (hop : cmdOp c = 0x4) (hsel : 3 < (cmdSel c).toNat) : IllegalWord c :=
  .inr (.inr ⟨.inl (congrArg BitVec.toNat hop), hsel⟩)

/-- One LDB completes and writes its lane only. -/
theorem exec_ldb_writes_lane (k : BitVec 2) (b : Byte) (s : State) :
    ∃ t, exec (.ldb k b) s = .next t ∧ (∀ j, t.memRead j = if j = k then b else s.memRead j) ∧ SameStatus s t ∧
      Answered s t (okResponse 0) := by
  obtain ⟨hstatus, hin, hresp⟩ := s.memWrite_frame k b
  refine ⟨_, exec_ldb k b s, fun j => ?_, hstatus, ?_, hin⟩
  · rw [State.memRead_respond, State.memRead_memWrite]
  · rw [State.respond_responses, hresp]

/-- A run goes on from the state its first command leaves. -/
theorem runInstrs_cons_of_next {i : Instr} {s t : State} (h : exec i s = .next t) (is : List Instr) :
    runInstrs (i :: is) s = runInstrs is t := by
  simp only [runInstrs, h]

/-- LDBs of one byte per lane write the lanes they name and no other, in whatever order and however often they name one. -/
theorem runInstrs_ldbs (b : BitVec 2 → Byte) (ks : List (BitVec 2)) (s : State) :
    ∃ t, runInstrs (ks.map fun k => .ldb k (b k)) s = .next t ∧
      (∀ j, t.memRead j = if j ∈ ks then b j else s.memRead j) ∧ SameStatus s t ∧
      t.responses = s.responses ++ List.replicate ks.length (okResponse 0) ∧ t.inputs = s.inputs := by
  induction ks generalizing s with
  | nil => exact ⟨s, rfl, fun j => rfl, ⟨rfl, rfl, rfl, rfl⟩, (List.append_nil _).symm, rfl⟩
  | cons k ks ih =>
    obtain ⟨u, hu, hlane, ⟨herr, hcode, hfield, hval⟩, hresp, hin⟩ := exec_ldb_writes_lane k (b k) s
    obtain ⟨t, ht, hlanes, ⟨herr', hcode', hfield', hval'⟩, hresp', hin'⟩ := ih u
    refine ⟨t, (runInstrs_cons_of_next hu _).trans ht, fun j => ?_,
      ⟨herr'.trans herr, hcode'.trans hcode, hfield'.trans hfield, hval'.trans hval⟩, ?_, hin'.trans hin⟩
    · rw [hlanes, hlane]
      by_cases hjk : j = k
      · simp [hjk]
      · simp [hjk]
    · rw [hresp', hresp, List.append_assoc]
      rfl

/-- W is its four byte lanes, lane 0 lowest (20_memory.md R40, R41). -/
theorem State.word_eq_fromLeBytes (s : State) :
    s.word = fromLeBytes (s.memRead 0) (s.memRead 1) (s.memRead 2) (s.memRead 3) := by
  have h := fromLeBytes_leBytes s.word
  rw [leBytes_eq_byteOf] at h
  exact h.symm

/-- Known lanes give the whole word. -/
theorem State.word_of_lanes {t : State} {b : BitVec 2 → Byte} (h : ∀ j, t.memRead j = b j) :
    t.word = fromLeBytes (b 0) (b 1) (b 2) (b 3) := by
  simp only [State.word_eq_fromLeBytes, h]

/-- Settles O23: a list of LDBs writes the lanes it names, so one that names all four leaves every lane, and with them the
whole word, as LDW of the same bytes does. -/
theorem ldbWritesOneByteLane : Obligations.LdbWritesOneByteLane := by
  refine ⟨rowDecodes_ldb, fun c s hop hsel => ?_, exec_ldb_writes_lane, fun ks b s hperm => ?_⟩
  · exact ⟨_, acceptCommand_of_illegalWord (illegalWord_of_ldb_sel hop hsel) s, State.raiseIllegal_entered s c⟩
  · have hall : ∀ j : BitVec 2, j ∈ ks := fun j => hperm.mem_iff.mpr (by revert j; decide)
    obtain ⟨t, ht, hlanes, hstatus, hresp, hin⟩ := runInstrs_ldbs b ks s
    have hword := State.word_of_lanes fun j => (hlanes j).trans (if_pos (hall j))
    rw [hperm.length_eq] at hresp
    exact ⟨t, _, ht, exec_ldw _ s, State.sameFields_of_word_eq (hword.trans (s.word_setWord _).symm), hstatus,
      hresp, hin⟩

/-! ### GETF (R112 to R117) -/

/-- A command that only answers changes no register and no part of the record. -/
theorem readsAs_of_respond {i : Instr} {s : State} {d : Word} (h : exec i s = .next (s.respond d)) : ReadsAs i s d :=
  ⟨_, h, ⟨rfl, rfl, rfl, rfl, rfl, rfl⟩, ⟨rfl, rfl, rfl, rfl⟩, rfl, rfl⟩

theorem getf_readsAs (i : FieldIdx) (s : State) : ReadsAs (.getf i) s (s.fieldPort i) :=
  readsAs_of_respond (exec_getf i s)

/-- The extension of a register by its sign is its value on the port (30_encoding.md R68). -/
theorem State.fieldPort_eq_toPort_val (s : State) (i : FieldIdx) : s.fieldPort i = toPort (s.val i) := by
  rw [State.fieldPort, State.val, toPort]
  cases (fieldSpec i).signed
  · rw [if_neg Bool.false_ne_true, if_neg Bool.false_ne_true, BitVec.ofInt_natCast, BitVec.ofNat_toNat]
  · rw [if_pos rfl, if_pos rfl, BitVec.signExtend]

/-- GETF's answer is the extractor of the packed word, whatever the field. -/
theorem State.fieldPort_eq_toPort_unpack (s : State) (i : FieldIdx) :
    s.fieldPort i = toPort (unpack s.word (fieldSpec i)) := by
  rw [State.fieldPort_eq_toPort_val, State.val_eq_unpack]

/-- Settles O25: each GETF is the one read of a field's port value, at its row of SPECS. -/
theorem getfReturnsTheExtractedField : Obligations.GetfReturnsTheExtractedField :=
  ⟨⟨rowDecodes_getf .extra, rowDecodes_getf .nframes, rowDecodes_getf .atype, rowDecodes_getf .offx,
    rowDecodes_getf .offy, rowDecodes_getf .aspeed⟩, fun s =>
   ⟨⟨getf_readsAs .extra s, s.fieldPort_eq_toPort_unpack .extra⟩,
    ⟨getf_readsAs .nframes s, s.fieldPort_eq_toPort_unpack .nframes⟩,
    ⟨getf_readsAs .atype s, s.fieldPort_eq_toPort_unpack .atype⟩,
    ⟨getf_readsAs .offx s, s.fieldPort_eq_toPort_unpack .offx⟩,
    ⟨getf_readsAs .offy s, s.fieldPort_eq_toPort_unpack .offy⟩,
    ⟨getf_readsAs .aspeed s, s.fieldPort_eq_toPort_unpack .aspeed⟩⟩⟩

end Sys2Proof.Machine
end

section
/-! SUPPORT. The pack-direction commands (42_pack_ops.md): what a register write does to the field values and to the packed
word, a list of STBs as lane reads, and the settled statements on SETF and STB. -/

namespace Sys2Proof.Machine

/-! ### The packed word as the merge of the field values (R94, 10_state.md R22) -/

/-- A register holds its own value, truncated to its width. -/
theorem State.ofInt_val (s : State) (i : FieldIdx) : BitVec.ofInt (fieldSpec i).bitSize (s.val i) = s.field i := by
  rw [State.val]
  cases (fieldSpec i).signed
  · rw [if_neg Bool.false_ne_true, BitVec.ofInt_natCast, BitVec.ofNat_toNat, BitVec.setWidth_eq]
  · rw [if_pos rfl, BitVec.ofInt_toInt]

theorem State.placed_eq_lane (s : State) (i : FieldIdx) : s.placed i = lane (s.val i) (fieldSpec i) := by
  rw [lane_eq_placed, State.ofInt_val, State.placed]

theorem State.word_eq_packOf_val (s : State) : s.word = packOf s.val := by
  simp only [State.word, State.placed_eq_lane]
  rfl

/-! ### A lane replaced in the merge -/

theorem packOf_and (u : FieldIdx → Int) (m : Word) :
    packOf u &&& m =
      (lane (u .extra) (fieldSpec .extra) &&& m) ||| (lane (u .nframes) (fieldSpec .nframes) &&& m) |||
        (lane (u .atype) (fieldSpec .atype) &&& m) ||| (lane (u .offx) (fieldSpec .offx) &&& m) |||
        (lane (u .offy) (fieldSpec .offy) &&& m) ||| (lane (u .aspeed) (fieldSpec .aspeed) &&& m) := by
  simp only [← BitVec.and_or_distrib_right]
  rfl

/-- A field's place in the merge holds that field's lane and nothing of the others. -/
theorem packOf_and_maskInPlace (u : FieldIdx → Int) (i : FieldIdx) :
    packOf u &&& maskInPlace (fieldSpec i) = lane (u i) (fieldSpec i) := by
  have hown := lane_and_maskInPlace (u i) (fieldSpec i)
  have hother : ∀ j, j ≠ i → lane (u j) (fieldSpec j) &&& maskInPlace (fieldSpec i) = 0 :=
    fun j hj => lane_and_eq_zero (maskInPlace_and_maskInPlace hj) (u j)
  rw [packOf_and]
  cases i <;> simp [hown, hother]

/-- Outside a field's place no lane depends on that field's value. -/
theorem lane_update_and_not_maskInPlace (u : FieldIdx → Int) (i : FieldIdx) (v : Int) (j : FieldIdx) :
    lane (Function.update u i v j) (fieldSpec j) &&& ~~~(maskInPlace (fieldSpec i)) =
      lane (u j) (fieldSpec j) &&& ~~~(maskInPlace (fieldSpec i)) := by
  by_cases hj : j = i
  · subst hj
    rw [lane_and_eq_zero (BitVec.and_not_self _), lane_and_eq_zero (BitVec.and_not_self _)]
  · rw [Function.update_of_ne hj]

theorem packOf_update_and_not_maskInPlace (u : FieldIdx → Int) (i : FieldIdx) (v : Int) :
    packOf (Function.update u i v) &&& ~~~(maskInPlace (fieldSpec i)) =
      packOf u &&& ~~~(maskInPlace (fieldSpec i)) := by
  have hlane := lane_update_and_not_maskInPlace u i v
  rw [packOf_and, packOf_and, hlane .extra, hlane .nframes, hlane .atype, hlane .offx, hlane .offy, hlane .aspeed]

/-- A word is its part outside a mask and its part under it. -/
theorem and_not_or_and (w m : Word) : (w &&& ~~~m) ||| (w &&& m) = w := by
  rw [← BitVec.and_or_distrib_left, BitVec.not_or_self, BitVec.and_allOnes]

/-- The merge with one value changed is the merge with that field's place cleared and the new lane put there. -/
theorem packOf_update (u : FieldIdx → Int) (i : FieldIdx) (v : Int) :
    packOf (Function.update u i v) = (packOf u &&& ~~~(maskInPlace (fieldSpec i))) ||| lane v (fieldSpec i) := by
  rw [← and_not_or_and (packOf (Function.update u i v)) (maskInPlace (fieldSpec i)),
    packOf_update_and_not_maskInPlace, packOf_and_maskInPlace, Function.update_self]

/-! ### SETF (R130 to R135) -/

theorem State.writeField_field_self (s : State) (i : FieldIdx) (v : Word) :
    (s.writeField i v).field i = v.extractLsb' 0 (fieldSpec i).bitSize := by
  cases i <;> rfl

theorem State.writeField_field_of_ne {i j : FieldIdx} (h : i ≠ j) (s : State) (v : Word) :
    (s.writeField i v).field j = s.field j := by
  obtain ⟨⟨hextra, hnframes, hatype, hoffx, hoffy, haspeed⟩, -⟩ := State.writeField_frame s i v
  cases j
  case extra => exact hextra h
  case nframes => exact hnframes h
  case atype => exact hatype h
  case offx => exact hoffx h
  case offy => exact hoffy h
  case aspeed => exact haspeed h

theorem fieldSpec_bitSize_le (i : FieldIdx) : (fieldSpec i).bitSize ≤ 32 := by
  cases i <;> decide

/-- The low bits of an accepted value read back as the value. -/
theorem State.writeField_val_self {i : FieldIdx} {v : Word} (h : Accepts i v.toInt) (s : State) :
    (s.writeField i v).val i = v.toInt := by
  have hslice : fieldSlice (s.writeField i v).word i = BitVec.ofInt (fieldSpec i).bitSize v.toInt := by
    rw [← State.field_eq_fieldSlice, State.writeField_field_self, ofInt_toInt_eq_lowBits (fieldSpec_bitSize_le i)]
  rw [State.val_eq_unpack]
  exact (unpack_eq_iff_inRange (fieldSpec_bitSize_pos i) hslice).mpr ((inRange_iff_accepts i _).mpr h)

theorem State.writeField_val {i : FieldIdx} {v : Word} (h : Accepts i v.toInt) (s : State) :
    (s.writeField i v).val = Function.update s.val i v.toInt := by
  funext j
  by_cases hj : j = i
  · subst hj
    rw [Function.update_self, State.writeField_val_self h]
  · rw [Function.update_of_ne hj, State.val, State.val, State.writeField_field_of_ne (Ne.symm hj)]

/-- An accepted write puts the value's insert lane in the field's place of W. -/
theorem State.writeField_word {i : FieldIdx} {v : Word} (h : Accepts i v.toInt) (s : State) :
    (s.writeField i v).word =
      (s.word &&& ~~~(maskInPlace (fieldSpec i))) ||| lane v.toInt (fieldSpec i) := by
  rw [State.word_eq_packOf_val, State.writeField_val h, packOf_update, ← State.word_eq_packOf_val]

theorem exec_setf_of_accepts {i : FieldIdx} {v : Word} (h : Accepts i v.toInt) (s : State) :
    exec (.setf i v) s = .next ((s.writeField i v).respond 0) := by
  rw [exec_setf, State.setField_of_accepts h]

theorem exec_setf_of_not_accepts {i : FieldIdx} {v : Word} (h : ¬ Accepts i v.toInt) (s : State) :
    exec (.setf i v) s = .next (s.raise .rangeError i v) := by
  rw [exec_setf, State.setField_of_not_accepts h]

/-- Settles O27: in range SETF is the register write, which replaces one lane of the merge W is; out of range it is the one
fault entry. -/
theorem setfStoresOrRaisesRangeError : Obligations.SetfStoresOrRaisesRangeError := by
  refine ⟨⟨rowDecodes_setf .extra, rowDecodes_setf .nframes, rowDecodes_setf .atype, rowDecodes_setf .offx,
    rowDecodes_setf .offy, rowDecodes_setf .aspeed⟩, fun i v s h => ?_, fun i v s h => ?_⟩
  · obtain ⟨hfields, hstatus, hin, hresp⟩ := State.writeField_frame s i v
    refine ⟨_, exec_setf_of_accepts h s, State.writeField_val_self h s, hfields, State.writeField_word h s, hstatus, ?_, hin⟩
    rw [State.respond_responses, hresp]
  · exact ⟨_, exec_setf_of_not_accepts h s, State.raise_entered s .rangeError i v⟩

/-! ### STB (R137) -/

theorem exec_stb (k : BitVec 2) (s : State) : exec (.stb k) s = .next (s.respond (s.lanePort k)) := rfl

@[simp] theorem State.lanePort_respond (s : State) (d : Word) (k : BitVec 2) : (s.respond d).lanePort k = s.lanePort k := rfl

theorem State.lanePort_eq_slice (s : State) (k : BitVec 2) :
    s.lanePort k = (s.word.extractLsb' (8 * k.toNat) 8).setWidth 32 := by
  rw [State.lanePort, State.memRead, byteOf_eq_slice]

/-- An STB whose selector is no lane is an illegal word (30_encoding.md R64, R66). -/
theorem illegalWord_of_stb_sel {c : CmdWord} (hop : cmdOp c = 0x5) (hsel : 3 < (cmdSel c).toNat) : IllegalWord c :=
  .inr (.inr ⟨.inr (.inl (congrArg BitVec.toNat hop)), hsel⟩)

/-- STBs answer the lanes they name, in their order: no STB changes what a later one reads. -/
theorem runInstrs_stbs (ks : List (BitVec 2)) (s : State) :
    ∃ t, runInstrs (ks.map .stb) s = .next t ∧
      t.responses = s.responses ++ ks.map fun k => okResponse (s.lanePort k) := by
  induction ks generalizing s with
  | nil => exact ⟨s, rfl, (List.append_nil _).symm⟩
  | cons k ks ih =>
    obtain ⟨t, ht, hresp⟩ := ih (s.respond (s.lanePort k))
    refine ⟨t, (runInstrs_cons_of_next (exec_stb k s) _).trans ht, ?_⟩
    simp [hresp]

/-- Settles O29: STB only answers, its byte lane is the slice R137 writes, and the bytes of le_bytes are the lanes in order. -/
theorem stbReturnsOneByteLane : Obligations.StbReturnsOneByteLane := by
  refine ⟨rowDecodes_stb, fun c s hop hsel => ?_, fun k s => ?_, fun s => ?_⟩
  · exact ⟨_, acceptCommand_of_illegalWord (illegalWord_of_stb_sel hop hsel) s, State.raiseIllegal_entered s c⟩
  · rw [← State.lanePort_eq_slice]
    exact readsAs_of_respond (exec_stb k s)
  · rw [leBytes_eq_byteOf]
    exact runInstrs_stbs [0, 1, 2, 3] s

end Sys2Proof.Machine
end

section
/-! SUPPORT. The system commands (43_system_ops.md): what can change ERR, STATUS as the sum of its fields, the recorded
bounds, and the settled statements on NOP, CLR, RDST and RDSPEC. -/

namespace Sys2Proof.Machine

/-! ### NOP (R150) -/

theorem exec_nop (s : State) : exec .nop s = .next (s.respond 0) := rfl

/-- Settles O30: NOP only answers, and its row is the row of op 0. -/
theorem nopChangesNothing : Obligations.NopChangesNothing :=
  ⟨rowDecodes_nop, fun s => readsAs_of_respond (exec_nop s)⟩

/-! ### CLR (R151) -/

theorem exec_clr (s : State) : exec .clr s = .next (s.clear.respond 0) := rfl

/-- CLR's effect on the registers and the record is that of reset. -/
theorem State.clear_sameAs_reset (s : State) : SameFields State.reset s.clear ∧ SameStatus State.reset s.clear :=
  ⟨⟨rfl, rfl, rfl, rfl, rfl, rfl⟩, ⟨rfl, rfl, rfl, rfl⟩⟩

/-- A SETF never clears ERR: in range it keeps the record, out of range it leaves ERR at 1. -/
theorem State.setField_err_of_err {s : State} (hs : s.err = true) (i : FieldIdx) (v : Word) :
    (s.setField i v).err = true := by
  by_cases hv : Accepts i v.toInt
  · obtain ⟨-, ⟨herr, -⟩, -⟩ := State.writeField_frame s i v
    rw [State.setField_of_accepts hv, State.respond_err, herr, hs]
  · rw [State.setField_of_not_accepts hv, State.raise_err]

/-- ERR is sticky under every command but CLR. -/
theorem exec_err_of_ne_clr {i : Instr} {s t : State} (h : exec i s = .next t) (hi : i ≠ .clr) (hs : s.err = true) :
    t.err = true := by
  obtain ⟨hclr, -⟩ | ⟨w, -, rfl⟩ | ⟨k, b, -, rfl⟩ | ⟨j, v, -, rfl⟩ | ⟨-, -, d, rfl⟩ := exec_cases h
  · exact absurd hclr hi
  · exact hs
  · exact hs
  · exact State.setField_err_of_err hs j v
  · exact hs

/-- Settles O31: CLR is the one clear, and ERR is sticky under every other command. -/
theorem clrLeavesTheResetState : Obligations.ClrLeavesTheResetState := by
  refine ⟨rowDecodes_clr, fun s => ?_, fun i s t h hs ht => ?_⟩
  · obtain ⟨hfields, hstatus⟩ := s.clear_sameAs_reset
    exact ⟨_, exec_clr s, hfields, hstatus, rfl, rfl⟩
  · by_contra hi
    rw [exec_err_of_ne_clr h hi hs] at ht
    cases ht

/-! ### RDST (R152 to R155) -/

theorem exec_rdstStatus (s : State) : exec .rdstStatus s = .next (s.respond s.statusReg) := rfl
theorem exec_rdstEval (s : State) : exec .rdstEval s = .next (s.respond s.eval) := rfl
theorem exec_rdstEmin (s : State) : exec .rdstEmin s = .next (s.respond s.eminReg) := rfl
theorem exec_rdstEmax (s : State) : exec .rdstEmax s = .next (s.respond s.emaxReg) := rfl

/-- A concatenation weighs its upper part by the width of its lower part. -/
theorem toNat_append_eq_add {m n : Nat} (x : BitVec m) (y : BitVec n) :
    (x ++ y).toNat = x.toNat * 2 ^ n + y.toNat := by
  rw [BitVec.toNat_append, ← Nat.shiftLeft_add_eq_or_of_lt y.isLt, Nat.shiftLeft_eq]

/-- STATUS as the sum of its fields at their bit positions (10_state.md R28). -/
theorem State.statusReg_eq_sum (s : State) :
    s.statusReg =
      BitVec.ofNat 32 (s.err.toNat + 2 * (causeCode s.ecode).toNat + 16 * (fieldIndex s.efield).toNat) := by
  have hsum : s.statusReg.toNat =
      s.err.toNat + 2 * (causeCode s.ecode).toNat + 16 * (fieldIndex s.efield).toNat := by
    simp only [State.statusReg, toNat_append_eq_add, BitVec.toNat_ofBool, BitVec.toNat_ofNat]
    omega
  rw [← hsum, BitVec.ofNat_toNat, BitVec.setWidth_eq]

/-- The bounds of the range check are those R96's table lists. -/
theorem specMin_fieldSpec (i : FieldIdx) : specMin (fieldSpec i) = acceptLow i := by
  cases i <;> rfl

theorem specMax_fieldSpec (i : FieldIdx) : specMax (fieldSpec i) = acceptHigh i := by
  cases i <;> rfl

theorem State.eminReg_eq_acceptLow (s : State) :
    s.eminReg = if s.ecode = .rangeError then BitVec.ofInt 32 (acceptLow s.efield) else 0 := by
  rw [State.eminReg, specMin_fieldSpec, toPort]

theorem State.emaxReg_eq_acceptHigh (s : State) :
    s.emaxReg = if s.ecode = .rangeError then BitVec.ofInt 32 (acceptHigh s.efield) else 0 := by
  rw [State.emaxReg, specMax_fieldSpec, toPort]

/-- The values STATUS can take under the record's invariant, one for each cause (43_system_ops.md R152). -/
theorem RecordOk.statusReg_cases {s : State} (h : RecordOk s) :
    (s.err = false ∧ s.statusReg = 0) ∨ (s.ecode = .illegalCommand ∧ s.statusReg = 5) ∨
      (s.ecode = .rangeError ∧ s.statusReg = 3 + ((fieldIndex s.efield).setWidth 32 <<< 4)) := by
  rw [RecordOk] at h
  split at h
  next hcode =>
    obtain ⟨herr, hfield, -⟩ := h
    refine .inl ⟨herr, ?_⟩
    rw [State.statusReg, herr, hcode, hfield]
    rfl
  next hcode =>
    obtain ⟨herr, -⟩ := h
    refine .inr (.inr ⟨hcode, ?_⟩)
    rw [State.statusReg, herr, hcode]
    cases s.efield <;> rfl
  next hcode =>
    obtain ⟨herr, hfield, -⟩ := h
    refine .inr (.inl ⟨hcode, ?_⟩)
    rw [State.statusReg, herr, hcode, hfield]
    rfl

/-- Settles O32: each RDST only answers its view of the record, and the invariant leaves STATUS one value per cause. -/
theorem rdstReadsTheRecord : Obligations.RdstReadsTheRecord := by
  have hstatus : ∀ s : State, ReadsAs .rdstStatus s s.statusReg := fun s => readsAs_of_respond (exec_rdstStatus s)
  refine ⟨⟨rowDecodes_rdst (sel := 0) rfl, rowDecodes_rdst (sel := 1) rfl, rowDecodes_rdst (sel := 2) rfl,
    rowDecodes_rdst (sel := 3) rfl⟩, fun s => ⟨?_, ?_, ?_, ?_⟩, fun s h => ?_⟩
  · rw [← State.statusReg_eq_sum]
    exact hstatus s
  · exact readsAs_of_respond (exec_rdstEval s)
  · rw [← State.eminReg_eq_acceptLow]
    exact readsAs_of_respond (exec_rdstEmin s)
  · rw [← State.emaxReg_eq_acceptHigh]
    exact readsAs_of_respond (exec_rdstEmax s)
  · obtain ⟨herr, hval⟩ | ⟨hcode, hval⟩ | ⟨hcode, hval⟩ := h.statusReg_cases
    · exact .inl ⟨herr, hval ▸ hstatus s⟩
    · exact .inr (.inl ⟨hcode, hval ▸ hstatus s⟩)
    · exact .inr (.inr ⟨hcode, hval ▸ hstatus s⟩)

/-! ### RDSPEC (R156 to R161) -/

/-- RDSPEC answers the layout constant of its row of SPECS. -/
theorem rdspec_readsAs {i : FieldIdx} {d : Word} (h : specReg (fieldSpec i) = d) (s : State) :
    ReadsAs (.rdspec i) s d :=
  readsAs_of_respond (h ▸ exec_rdspec i s)

/-- Settles O33: each RDSPEC answers specReg of its row, which is the listed constant. -/
theorem rdspecReturnsTheLayout : Obligations.RdspecReturnsTheLayout :=
  ⟨⟨rowDecodes_rdspec .extra, rowDecodes_rdspec .nframes, rowDecodes_rdspec .atype, rowDecodes_rdspec .offx,
    rowDecodes_rdspec .offy, rowDecodes_rdspec .aspeed⟩, fun s =>
   ⟨rdspec_readsAs (i := .extra) (by decide) s, rdspec_readsAs (i := .nframes) (by decide) s,
    rdspec_readsAs (i := .atype) (by decide) s, rdspec_readsAs (i := .offx) (by decide) s,
    rdspec_readsAs (i := .offy) (by decide) s, rdspec_readsAs (i := .aspeed) (by decide) s⟩⟩

end Sys2Proof.Machine
end

section
/-! SUPPORT. The faults (60_exceptions.md): the words that fault, accepting a word inverted once into the two fault entries and
completion, and the settled statements on when a fault occurs and what it writes. -/

namespace Sys2Proof.Machine

/-! ### The words that fault (R165) -/

/-- The words of a SETF whose value is outside its field's accept set (R167). -/
abbrev RangeErrorWord (c : CmdWord) : Prop := ∃ i v, decode c = .ok (.setf i v) ∧ ¬ Accepts i v.toInt

/-- A word that decodes is not illegal, so the two fault causes exclude each other. -/
theorem not_illegalWord_of_decode_ok {c : CmdWord} {i : Instr} (h : decode c = .ok i) : ¬ IllegalWord c :=
  (exists_decode_ok_iff c).mp ⟨i, h⟩

theorem acceptCommand_of_setf_not_accepts {c : CmdWord} {i : FieldIdx} {v : Word} (hc : decode c = .ok (.setf i v))
    (hv : ¬ Accepts i v.toInt) (s : State) : acceptCommand c s = .next (s.raise .rangeError i v) :=
  (acceptCommand_of_decode_ok hc s).trans (exec_setf_of_not_accepts hv s)

/-! ### acceptCommand, inverted once (R168, R171) -/

/-- Accepting a word enters the IllegalCommand fault, enters the RangeError fault, or completes, each on its own words. -/
theorem acceptCommand_cases {c : CmdWord} {s t : State} (h : acceptCommand c s = .next t) :
    (IllegalWord c ∧ FaultEntered s t .illegalCommand .extra (illegalEval c)) ∨
    (∃ i v, decode c = .ok (.setf i v) ∧ ¬ Accepts i v.toInt ∧ FaultEntered s t .rangeError i v) ∨
    (¬ IllegalWord c ∧ ¬ RangeErrorWord c ∧ ∃ d, Answered s t (okResponse d)) := by
  by_cases hill : IllegalWord c
  · obtain rfl : s.raiseIllegal c = t := Host.Outcome.next.inj ((acceptCommand_of_illegalWord hill s).symm.trans h)
    exact .inl ⟨hill, s.raiseIllegal_entered c⟩
  by_cases hrange : RangeErrorWord c
  · obtain ⟨i, v, hc, hv⟩ := hrange
    obtain rfl : s.raise .rangeError i v = t :=
      Host.Outcome.next.inj ((acceptCommand_of_setf_not_accepts hc hv s).symm.trans h)
    exact .inr (.inl ⟨i, v, hc, hv, s.raise_entered .rangeError i v⟩)
  · obtain ⟨i, hc⟩ := (exists_decode_ok_iff c).mpr hill
    obtain hok | ⟨j, v, rfl, hv, -⟩ := exec_completes_or_faults ((acceptCommand_of_decode_ok hc s).symm.trans h)
    · exact .inr (.inr ⟨hill, hrange, hok⟩)
    · exact absurd ⟨j, v, hc, hv⟩ hrange

/-! ### When a fault occurs and what it writes -/

/-- Settles O16: the inversion gives the response of each case, and an illegal word decodes to nothing. -/
theorem faultsOccurExactlyThen : Obligations.FaultsOccurExactlyThen := by
  intro c s
  have hexcl : ¬ (IllegalWord c ∧ ∃ i v, decode c = .ok (.setf i v)) :=
    fun ⟨hill, _, _, hc⟩ => not_illegalWord_of_decode_ok hc hill
  obtain ⟨t, ht, -⟩ := acceptCommand_completes_or_faults c s
  obtain ⟨hill, -, ⟨hresp, -⟩, -⟩ | ⟨i, v, hc, hv, -, ⟨hresp, -⟩, -⟩ | ⟨hill, hrange, d, hresp, -⟩ := acceptCommand_cases ht
  · exact ⟨t, faultResponse, ht, hresp, iff_of_true rfl (.inl hill), hexcl⟩
  · exact ⟨t, faultResponse, ht, hresp, iff_of_true rfl (.inr ⟨i, v, hc, hv⟩), hexcl⟩
  · exact ⟨t, okResponse d, ht, hresp, iff_of_false Bool.false_ne_true (not_or.mpr ⟨hill, hrange⟩), hexcl⟩

/-- Settles O17: both fault cases of the inversion are the one fault entry, and a completion's response has err = 0. -/
theorem faultEntryWritesOnlyTheRecord : Obligations.FaultEntryWritesOnlyTheRecord := by
  intro c s t r h hr herr
  obtain hill | hrange | ⟨-, -, d, hresp, -⟩ := acceptCommand_cases h
  · exact .inl hill
  · exact .inr hrange
  · obtain rfl : r = okResponse d := List.singleton_inj.mp (List.append_cancel_left (hr.symm.trans hresp))
    exact absurd herr Bool.false_ne_true

end Sys2Proof.Machine
end

section
/-! SUPPORT. Decode of encode (30_encoding.md R62, R70): an encoded word matches its command's row (Laws/PerInstr), and the
row's command reads its operands back from the word. -/

namespace Sys2Proof.Machine

/-! ### Operands read back from an encoded word -/

/-- A row's word decodes to the command the row makes of it: when that is the command encoded, decoding undoes encoding. -/
theorem decode_encode_of_row {i : Instr} {m mask : CmdWord} {f : CmdWord → Instr} (hrow : RowDecodes m mask f)
    (hmatch : encode i &&& mask = m) (hoperands : f (encode i) = i) : decode (encode i) = .ok i :=
  (hrow _ hmatch).trans (congrArg _ hoperands)

/-- LDB and STB read the lane from the low two bits of sel. -/
theorem cmdWord_lane (op : BitVec 4) (k : BitVec 2) (d : Word) :
    (cmdWord op (k.setWidth 4) d).extractLsb' 32 2 = k := by
  have hsel : ∀ c : CmdWord, c.extractLsb' 32 2 = (cmdSel c).setWidth 2 := fun c =>
    (BitVec.setWidth_extractLsb'_of_le (by decide)).symm
  rw [hsel, cmdSel_cmdWord, BitVec.setWidth_setWidth_of_le _ (by decide), BitVec.setWidth_eq]

/-- LDB reads its byte from the low eight bits of data. -/
theorem cmdWord_lowByte (op sel : BitVec 4) (b : Byte) :
    (cmdWord op sel (b.setWidth 32)).extractLsb' 0 8 = b := by
  rw [← cmdData_lowByte, cmdData_cmdWord, BitVec.setWidth_setWidth_of_le _ (by decide), BitVec.setWidth_eq]

/-! ### The round trip, by the kinds of operand -/

theorem decode_encode_ldb (k : BitVec 2) (b : Byte) : decode (encode (.ldb k b)) = .ok (.ldb k b) :=
  decode_encode_of_row rowDecodes_ldb (Laws.EncodesInRow.ldb k b)
    (congrArg₂ Instr.ldb (cmdWord_lane _ k _) (cmdWord_lowByte _ _ b))

theorem decode_encode_stb (k : BitVec 2) : decode (encode (.stb k)) = .ok (.stb k) :=
  decode_encode_of_row rowDecodes_stb (Laws.EncodesInRow.stb k) (congrArg Instr.stb (cmdWord_lane _ k _))

theorem decode_encode_ldw (w : Word) : decode (encode (.ldw w)) = .ok (.ldw w) :=
  decode_encode_of_row rowDecodes_ldw (Laws.EncodesInRow.ldw w) (congrArg Instr.ldw (cmdData_cmdWord _ _ w))

theorem encode_setf (i : FieldIdx) (v : Word) :
    encode (.setf i v) = cmdWord 0x6 ((fieldIndex i).setWidth 4) v := by
  cases i <;> rfl

theorem decode_encode_setf (i : FieldIdx) (v : Word) : decode (encode (.setf i v)) = .ok (.setf i v) := by
  rw [encode_setf, decode_setf_op (cmdOp_cmdWord _ _ _), cmdSel_cmdWord, cmdData_cmdWord,
    fieldOfSel_eq_some_iff.mpr rfl]
  rfl

/-- Settles O1: the encoded word matches its command's row, and the operands of LDW, LDB, STB and SETF read back; the other
commands have none. -/
theorem decodeOfEncodeIsTheCommand : Obligations.DecodeOfEncodeIsTheCommand := by
  intro i
  cases i
  case ldw w => exact decode_encode_ldw w
  case ldb k b => exact decode_encode_ldb k b
  case stb k => exact decode_encode_stb k
  case setfExtra v => exact decode_encode_setf .extra v
  case setfNframes v => exact decode_encode_setf .nframes v
  case setfAtype v => exact decode_encode_setf .atype v
  case setfOffx v => exact decode_encode_setf .offx v
  case setfOffy v => exact decode_encode_setf .offy v
  case setfAspeed v => exact decode_encode_setf .aspeed v
  all_goals rfl

/-- Settles O4: each word matches its command's row, and the row's command reads the operands from it. -/
theorem specWordsDecode : Obligations.SpecWordsDecode :=
  ⟨rowDecodes_ldw _ (by decide), rowDecodes_ldb _ (by decide), rowDecodes_stb _ (by decide),
    rowDecodes_setf .offx _ (by decide), rowDecodes_getf .offx _ (by decide), rowDecodes_nop _ (by decide),
    rowDecodes_rdst (sel := 3) rfl _ (by decide), rowDecodes_rdspec .aspeed _ (by decide)⟩

end Sys2Proof.Machine
end

section
/-! SUPPORT. The generic codec over any accepted table (00_scope.md R6; 40_field_functions.md section 8): the bits a row
covers, the merge of a word's own fields bit by bit, and rows that share no bit. -/

namespace Sys2Proof.Machine

/-! ### The bits a row covers (R9) -/

theorem FieldSpec.covers_iff (sp : FieldSpec) (k : Nat) :
    sp.covers k = true ↔ sp.bitOffset ≤ k ∧ k < sp.bitOffset + sp.bitSize := by
  simp [FieldSpec.covers]

/-- A truncation at a row's place, bit by bit. -/
theorem placed_getLsbD (sp : FieldSpec) (x : BitVec sp.bitSize) {k : Nat} (hk : k < 32) :
    (x.setWidth 32 <<< sp.bitOffset).getLsbD k = (sp.covers k && x.getLsbD (k - sp.bitOffset)) := by
  have hx : x.getLsbD (k - sp.bitOffset) = (decide (k - sp.bitOffset < sp.bitSize) && x.getLsbD (k - sp.bitOffset)) := by
    by_cases h : k - sp.bitOffset < sp.bitSize
    · simp [h]
    · simp [h, BitVec.getLsbD_of_ge x _ (Nat.le_of_not_lt h)]
  rw [BitVec.getLsbD_shiftLeft, BitVec.getLsbD_setWidth, hx, FieldSpec.covers]
  by_cases hlow : sp.bitOffset ≤ k
  · simp [hk, hlow, show k - sp.bitOffset < 32 by omega, Nat.sub_lt_iff_lt_add' hlow]
  · simp [hlow]

theorem maskInPlace_getLsbD (sp : FieldSpec) {k : Nat} (hk : k < 32) : (maskInPlace sp).getLsbD k = sp.covers k := by
  rw [maskInPlace_eq_placed, placed_getLsbD sp _ hk, BitVec.getLsbD_allOnes, FieldSpec.covers]
  simp; omega

/-! ### Every word is the merge of its own fields -/

/-- A field holds its own extracted value, truncated to its width. -/
theorem ofInt_unpack (w : Word) (sp : FieldSpec) :
    BitVec.ofInt sp.bitSize (unpack w sp) = w.extractLsb' sp.bitOffset sp.bitSize := by
  cases h : sp.signed
  · rw [unpack_of_unsigned h, BitVec.ofInt_natCast, BitVec.ofNat_toNat, BitVec.setWidth_eq]
  · rw [unpack_of_signed h, BitVec.ofInt_toInt]

theorem lane_unpack (w : Word) (sp : FieldSpec) : lane (unpack w sp) sp = w &&& maskInPlace sp := by
  apply BitVec.eq_of_getLsbD_eq
  intro k hk
  rw [lane_eq_placed, ofInt_unpack, placed_getLsbD sp _ hk, BitVec.getLsbD_and, maskInPlace_getLsbD sp hk,
    BitVec.getLsbD_extractLsb']
  cases h : sp.covers k
  · simp
  · obtain ⟨hlow, hhigh⟩ := (FieldSpec.covers_iff sp k).mp h
    simp [hlow, hhigh, Nat.sub_lt_iff_lt_add' hlow]

/-- The merge of a word's own fields is the word on the bits some row covers. -/
theorem packTable_unpackTable_getLsbD (t : SpecTable) (w : Word) {k : Nat} (hk : k < 32) :
    (packTable t (unpackTable t w)).getLsbD k = (w.getLsbD k && t.any fun sp => sp.covers k) := by
  induction t with
  | nil => simp [packTable]
  | cons sp t ih =>
    have hmerge : packTable (sp :: t) (unpackTable (sp :: t) w) = lane (unpack w sp) sp ||| packTable t (unpackTable t w) :=
      rfl
    rw [hmerge, BitVec.getLsbD_or, ih, lane_unpack, BitVec.getLsbD_and, maskInPlace_getLsbD sp hk, List.any_cons,
      Bool.and_or_distrib_left]

/-- What an accepted table promises: well-formed rows, of which exactly one covers each bit of the word. -/
theorem SpecTable.wellFormed_iff (t : SpecTable) :
    t.wellFormed = true ↔
      (∀ sp ∈ t, sp.wellFormed = true) ∧ ∀ k < 32, (t.filter fun sp => sp.covers k).length = 1 := by
  simp [SpecTable.wellFormed, SpecTable.partitions]

/-- "no gaps": unpacking by an accepted table loses no bit of the word. -/
theorem packTable_unpackTable {t : SpecTable} (h : t.wellFormed = true) (w : Word) : packTable t (unpackTable t w) = w := by
  obtain ⟨-, hone⟩ := (SpecTable.wellFormed_iff t).mp h
  apply BitVec.eq_of_getLsbD_eq
  intro k hk
  obtain ⟨sp, hsp⟩ := List.length_eq_one_iff.mp (hone k hk)
  have hmem : sp ∈ t.filter fun sp => sp.covers k := hsp ▸ List.mem_singleton_self sp
  have hany : (t.any fun sp => sp.covers k) = true := List.any_eq_true.mpr ⟨sp, List.mem_filter.mp hmem⟩
  rw [packTable_unpackTable_getLsbD t w hk, hany, Bool.and_true]

/-! ### In-range values come back from the merge -/

/-- Two rows that cover no bit of the word in common. -/
abbrev DisjointRows (a b : FieldSpec) : Prop := maskInPlace a &&& maskInPlace b = 0

theorem disjointRows_of_covers {a b : FieldSpec} (h : ∀ k < 32, ¬ (a.covers k = true ∧ b.covers k = true)) :
    DisjointRows a b := by
  apply BitVec.eq_of_getLsbD_eq
  intro k hk
  simpa [maskInPlace_getLsbD _ hk] using h k hk

/-- "no overlaps": a bit two rows cover has two rows in its filter. -/
theorem pairwise_disjointRows {t : SpecTable} (h : ∀ k < 32, (t.filter fun sp => sp.covers k).length ≤ 1) :
    t.Pairwise DisjointRows := by
  induction t with
  | nil => exact .nil
  | cons a t ih =>
    refine .cons (fun b hb => disjointRows_of_covers fun k hk ⟨ha, hbk⟩ => ?_) (ih fun k hk => ?_)
    · have hpos := List.length_pos_of_mem (List.mem_filter (p := fun sp : FieldSpec => sp.covers k).mpr ⟨hb, hbk⟩)
      have hle := h k hk
      rw [List.filter_cons_of_pos (p := fun sp : FieldSpec => sp.covers k) ha, List.length_cons] at hle
      omega
    · exact (((List.sublist_cons_self a t).filter _).length_le).trans (h k hk)

/-- The merge of a table has no bit in a word no row of it has one in. -/
theorem packTable_and_eq_zero {t : SpecTable} {m : Word} (h : ∀ sp ∈ t, maskInPlace sp &&& m = 0) (vs : List Int) :
    packTable t vs &&& m = 0 := by
  induction t generalizing vs with
  | nil => simp [packTable]
  | cons sp t ih =>
    obtain ⟨hsp, ht⟩ := List.forall_mem_cons.mp h
    cases vs with
    | nil => simp [packTable]
    | cons v vs =>
      rw [packTable, BitVec.and_or_distrib_right, lane_and_eq_zero hsp, ih ht, BitVec.or_self]

/-- A field's bits are the word's bits under its mask in place. -/
theorem slice_and_maskInPlace {sp : FieldSpec} (h : sp.bitOffset + sp.bitSize ≤ 32) (w : Word) :
    (w &&& maskInPlace sp).extractLsb' sp.bitOffset sp.bitSize = w.extractLsb' sp.bitOffset sp.bitSize := by
  apply BitVec.eq_of_getLsbD_eq
  intro k hk
  simp [maskInPlace_getLsbD sp (show sp.bitOffset + k < 32 by omega), FieldSpec.covers, hk]

/-- A word without bits in a field's place changes nothing of the field when it is merged in. -/
theorem slice_or {sp : FieldSpec} (h : sp.bitOffset + sp.bitSize ≤ 32) {w' : Word} (hw : w' &&& maskInPlace sp = 0)
    (w : Word) : (w ||| w').extractLsb' sp.bitOffset sp.bitSize = w.extractLsb' sp.bitOffset sp.bitSize := by
  have hand : (w ||| w') &&& maskInPlace sp = w &&& maskInPlace sp := by
    rw [BitVec.and_or_distrib_right, hw]
    exact BitVec.or_zero
  rw [← slice_and_maskInPlace h, hand, slice_and_maskInPlace h]

theorem unpackTable_packTable {t : SpecTable} {vs : List Int} (hwf : ∀ sp ∈ t, sp.wellFormed = true)
    (hdisj : t.Pairwise DisjointRows) (hvs : List.Forall₂ (fun sp v => inRange v sp = true) t vs) :
    unpackTable t (packTable t vs) = vs := by
  induction hvs with
  | nil => rfl
  | @cons sp v t vs hv hvs ih =>
    obtain ⟨hsp, ht⟩ := List.forall_mem_cons.mp hwf
    obtain ⟨hhead, htail⟩ := List.pairwise_cons.mp hdisj
    obtain ⟨hsize, -, -, hend⟩ := (FieldSpec.wellFormed_iff sp).mp hsp
    have hother : packTable t vs &&& maskInPlace sp = 0 :=
      packTable_and_eq_zero (fun b hb => (BitVec.and_comm _ _).trans (hhead b hb)) vs
    have hself : unpack (lane v sp ||| packTable t vs) sp = v :=
      (unpack_eq_iff_inRange hsize ((slice_or hend hother _).trans (lane_slice hend v))).mpr hv
    have hrest : ∀ b ∈ t, unpack (lane v sp ||| packTable t vs) b = unpack (packTable t vs) b := by
      intro b hb
      obtain ⟨-, -, -, hbend⟩ := (FieldSpec.wellFormed_iff b).mp (ht b hb)
      rw [BitVec.or_comm]
      exact unpack_congr (slice_or hbend (lane_and_eq_zero (hhead b hb) v) _)
    calc unpackTable (sp :: t) (packTable (sp :: t) (v :: vs))
        = unpack (lane v sp ||| packTable t vs) sp :: t.map (unpack (lane v sp ||| packTable t vs)) := rfl
      _ = v :: t.map (unpack (packTable t vs)) := by rw [hself, List.map_congr_left hrest]
      _ = v :: vs := congrArg _ (ih ht htail)

/-- The merge of the six fixed rows is pack. -/
theorem packTable_specs (e n t x y s : Int) : packTable Config.bfc32.specs [e, n, t, x, y, s] = pack e n t x y s := by
  simp only [pack, BitVec.or_assoc]
  exact congrArg (fun u => laneExtra e ||| (laneNframes n ||| (laneAtype t ||| (laneOffx x ||| (laneOffy y ||| u)))))
    BitVec.or_zero

/-- Settles O47: an accepted table's rows leave no bit of the word out, so a word's fields merge to it, and share none, so
in-range values come back. -/
theorem acceptedTablesRoundTrip : Obligations.AcceptedTablesRoundTrip := by
  refine ⟨fun t ht => ⟨packTable_unpackTable ht, fun vs hvs => ?_⟩, by decide, by decide, packTable_specs⟩
  obtain ⟨hrows, hone⟩ := (SpecTable.wellFormed_iff t).mp ht
  exact unpackTable_packTable hrows (pairwise_disjointRows fun k hk => (hone k hk).le) hvs

/-- Settles O40: the six fixed rows are an accepted table. -/
theorem wordsRoundTripThroughTheValues : Obligations.WordsRoundTripThroughTheValues := fun w =>
  (packTable_specs _ _ _ _ _ _).symm.trans (packTable_unpackTable (t := Config.bfc32.specs) (by decide) w)

end Sys2Proof.Machine
end

section
/-! SUPPORT. One step by what the host presents (00_scope.md R7), and the settled statements on a single step. -/

namespace Sys2Proof.Machine

/-! ### The step by the first input -/

section
variable {s : State} {rest : List HostInput}

theorem step_of_no_input (h : s.inputs = []) : step s = .next s := by
  simp [step, h]

theorem step_of_reset (h : s.inputs = .reset :: rest) : step s = .next (s.withInputs rest).clear := by
  simp [step, h, acceptInput]

theorem step_of_command {c : CmdWord} (h : s.inputs = .command c :: rest) :
    step s = acceptCommand c (s.withInputs rest) := by
  simp [step, h, acceptInput]

end

/-- The three things a step can do: wait, reset, or accept the presented word. -/
theorem step_cases {s t : State} (h : step s = .next t) :
    (s.inputs = [] ∧ t = s) ∨ (∃ rest, s.inputs = .reset :: rest ∧ t = (s.withInputs rest).clear) ∨
      ∃ c rest, s.inputs = .command c :: rest ∧ acceptCommand c (s.withInputs rest) = .next t := by
  match hin : s.inputs with
  | [] => exact .inl ⟨rfl, (Host.Outcome.next.inj ((step_of_no_input hin).symm.trans h)).symm⟩
  | .reset :: rest =>
    exact .inr (.inl ⟨rest, rfl, (Host.Outcome.next.inj ((step_of_reset hin).symm.trans h)).symm⟩)
  | .command c :: rest => exact .inr (.inr ⟨c, rest, rfl, (step_of_command hin).symm.trans h⟩)

/-! ### A single step, settled -/

/-- A table row's word presented next is accepted by the very next step, in the state without it. -/
theorem step_withFetchWord (s : State) (nbits w : Nat) :
    step (s.withFetchWord nbits w) = acceptCommand (tableWord nbits w) s := by
  rw [State.withFetchWord, step_of_command (State.present_inputs s _), State.present_withInputs]

theorem decodeTableWord_eq_some {nbits w : Nat} {i : Instr} (h : decodeTableWord nbits w = some i) :
    decode (tableWord nbits w) = .ok i := by
  rw [decodeTableWord] at h
  cases hd : decode (tableWord nbits w) with
  | error e => simp [hd, Except.toOption] at h
  | ok j => simpa [hd, Except.toOption] using h

/-- Settles O5: both forms of presenting a word end in acceptCommand, which runs the decoded command. -/
theorem stepRunsTheDecodedCommand : Obligations.StepRunsTheDecodedCommand := by
  refine ⟨fun s c rest i hin hc => ?_, fun s nbits w i hw => ?_⟩
  · rw [step_of_command hin, acceptCommand_of_decode_ok hc]
  · rw [step_withFetchWord, acceptCommand_of_decode_ok (decodeTableWord_eq_some hw)]

/-- Settles O6: the step accepts the word, and an illegal word goes through the one fault entry. -/
theorem stepRaisesIllegalCommand : Obligations.StepRaisesIllegalCommand := fun _ c _ hin hill =>
  ⟨_, (step_of_command hin).trans (acceptCommand_of_illegalWord hill _), State.raiseIllegal_entered _ c⟩

/-- Settles O7: the reset input clears the registers and the record and touches neither list but for its own entry. -/
theorem resetInputLeavesTheResetState : Obligations.ResetInputLeavesTheResetState := fun s rest hin =>
  have ⟨hfields, hstatus⟩ := (s.withInputs rest).clear_sameAs_reset
  ⟨_, step_of_reset hin, hfields, hstatus, rfl, rfl⟩

/-- Settles O8: the empty port is the step's waiting case. -/
theorem stepWithoutInputWaits : Obligations.StepWithoutInputWaits := fun _ => step_of_no_input

/-- Accepting a word answers once, whether it completes or faults, and leaves the port alone. -/
theorem acceptCommand_answers (c : CmdWord) (s : State) : ∃ t r, acceptCommand c s = .next t ∧ Answered s t r := by
  obtain ⟨t, r, ht, hans, -⟩ := everyCommandAnswersOnce c s
  exact ⟨t, r, ht, hans⟩

/-- Settles O10: each of the three cases of a step gives a next state, and only a presented word adds a response. -/
theorem everyStepGivesANextState : Obligations.EveryStepGivesANextState := by
  intro s
  match hin : s.inputs with
  | [] => exact ⟨s, step_of_no_input hin, hin, ⟨[], List.append_nil _⟩⟩
  | .reset :: rest => exact ⟨_, step_of_reset hin, rfl, ⟨[], List.append_nil _⟩⟩
  | .command c :: rest =>
    obtain ⟨t, r, ht, hresp, hports⟩ := acceptCommand_answers c (s.withInputs rest)
    exact ⟨t, (step_of_command hin).trans ht, hports, ⟨[r], hresp.symm⟩⟩

end Sys2Proof.Machine
end

section
/-! SUPPORT. The fault record over one command and one step (10_state.md section 4, 60_exceptions.md sections 1 and 2): who
writes it, its invariant, and that the datapath does not read it. -/

namespace Sys2Proof.Machine

/-! ### Who writes the record -/

/-- What a command does to the record: CLR clears it, a SETF out of range enters a fault, every other completes and keeps it. -/
theorem exec_record_cases {i : Instr} {s t : State} (h : exec i s = .next t) :
    (i = .clr ∧ t = s.clear.respond 0) ∨ (SameStatus s t ∧ ∃ d, Answered s t (okResponse d)) ∨
      ∃ j v, i = .setf j v ∧ ¬ Accepts j v.toInt ∧ t = s.raise .rangeError j v := by
  obtain ⟨rfl, rfl⟩ | ⟨w, -, rfl⟩ | ⟨k, b, -, rfl⟩ | ⟨j, v, rfl, rfl⟩ | ⟨-, -, d, rfl⟩ := exec_cases h
  · exact .inl ⟨rfl, rfl⟩
  · exact .inr (.inl ⟨⟨rfl, rfl, rfl, rfl⟩, 0, rfl, rfl⟩)
  · exact .inr (.inl ⟨⟨rfl, rfl, rfl, rfl⟩, 0, rfl, rfl⟩)
  · by_cases hv : Accepts j v.toInt
    · obtain ⟨-, hstatus, -, -⟩ := State.writeField_frame s j v
      refine .inr (.inl ⟨?_, 0, State.setField_answered hv s⟩)
      rw [State.setField_of_accepts hv]
      exact hstatus
    · exact .inr (.inr ⟨j, v, rfl, hv, State.setField_of_not_accepts hv s⟩)
  · exact .inr (.inl ⟨⟨rfl, rfl, rfl, rfl⟩, d, rfl, rfl⟩)

/-- What a presented word does to the record: a CLR clears it, an illegal word and a SETF out of range each enter their fault,
every other word completes and keeps it. -/
theorem acceptCommand_record_cases {c : CmdWord} {s t : State} (h : acceptCommand c s = .next t) :
    (decode c = .ok .clr ∧ t = s.clear.respond 0) ∨ (SameStatus s t ∧ ∃ d, Answered s t (okResponse d)) ∨
    (IllegalWord c ∧ FaultEntered s t .illegalCommand .extra (illegalEval c)) ∨
    ∃ i v, decode c = .ok (.setf i v) ∧ ¬ Accepts i v.toInt ∧ FaultEntered s t .rangeError i v := by
  by_cases hill : IllegalWord c
  · obtain rfl : s.raiseIllegal c = t := Host.Outcome.next.inj ((acceptCommand_of_illegalWord hill s).symm.trans h)
    exact .inr (.inr (.inl ⟨hill, s.raiseIllegal_entered c⟩))
  · obtain ⟨i, hc⟩ := (exists_decode_ok_iff c).mpr hill
    rw [acceptCommand_of_decode_ok hc] at h
    obtain ⟨rfl, ht⟩ | hkept | ⟨j, v, rfl, hv, rfl⟩ := exec_record_cases h
    · exact .inl ⟨hc, ht⟩
    · exact .inr (.inl hkept)
    · exact .inr (.inr (.inr ⟨j, v, hc, hv, s.raise_entered .rangeError j v⟩))

/-- Settles O18: with CLR out, a word keeps the record or enters a fault, which keeps a record already held. -/
theorem recordIsSticky : Obligations.RecordIsSticky := by
  intro c s t herr hclr h
  obtain ⟨hc, -⟩ | ⟨hsame, -⟩ | ⟨-, -, -, -, hheld⟩ | ⟨i, v, -, -, -, -, -, hheld⟩ := acceptCommand_record_cases h
  · exact absurd hc hclr
  · exact hsame
  · exact hheld herr
  · exact hheld herr

/-! ### The record's invariant -/

theorem RecordOk.of_sameStatus {s t : State} (h : SameStatus s t) (hs : RecordOk s) : RecordOk t := by
  obtain ⟨herr, hcode, hfield, hval⟩ := h
  rw [RecordOk, herr, hcode, hfield, hval]
  exact hs

/-- CLR and the reset input leave the empty record. -/
theorem RecordOk.clear (s : State) : RecordOk s.clear := ⟨rfl, rfl, rfl⟩

theorem RecordOk.of_rangeError {t : State} (herr : t.err = true) (hcode : t.ecode = .rangeError)
    (hval : ¬ Accepts t.efield t.eval.toInt) : RecordOk t := by
  rw [RecordOk, hcode]
  exact ⟨herr, hval⟩

theorem RecordOk.of_illegalCommand {t : State} {c : CmdWord} (hc : IllegalWord c) (herr : t.err = true)
    (hcode : t.ecode = .illegalCommand) (hfield : t.efield = .extra) (hval : t.eval = illegalEval c) : RecordOk t := by
  rw [RecordOk, hcode]
  exact ⟨herr, hfield, cmdOp c, cmdSel c, hc, hval⟩

/-- A fault entered from a sound record leaves a sound one, if the record the fault would write is sound. -/
theorem RecordOk.of_faultEntered {s t : State} {k : Cause} {f : FieldIdx} {v : Word} (hs : RecordOk s)
    (h : FaultEntered s t k f v)
    (hnew : t.err = true → t.ecode = k → t.efield = f → t.eval = v → RecordOk t) : RecordOk t := by
  obtain ⟨-, -, hwrite, hheld⟩ := h
  cases herr : s.err
  · obtain ⟨herr', hcode, hfield, hval⟩ := hwrite herr
    exact hnew herr' hcode hfield hval
  · exact hs.of_sameStatus (hheld herr)

theorem acceptCommand_keeps_recordOk {c : CmdWord} {s t : State} (hs : RecordOk s) (h : acceptCommand c s = .next t) :
    RecordOk t := by
  obtain ⟨-, rfl⟩ | ⟨hsame, -⟩ | ⟨hill, hfault⟩ | ⟨i, v, -, hv, hfault⟩ := acceptCommand_record_cases h
  · exact RecordOk.clear s
  · exact hs.of_sameStatus hsame
  · exact hs.of_faultEntered hfault (.of_illegalCommand hill)
  · refine hs.of_faultEntered hfault fun herr hcode hfield hval => .of_rangeError herr hcode ?_
    rwa [hfield, hval]

/-- Settles O14: the reset state is itself cleared. -/
theorem recordOkAtReset : Obligations.RecordOkAtReset := RecordOk.clear State.reset

/-- Settles O15: waiting keeps the record, reset empties it, and a presented word keeps it sound in each of its cases. -/
theorem stepKeepsTheRecordOk : Obligations.StepKeepsTheRecordOk := by
  intro s t hs h
  obtain ⟨-, rfl⟩ | ⟨rest, -, rfl⟩ | ⟨c, rest, -, hc⟩ := step_cases h
  · exact hs
  · exact RecordOk.clear _
  · exact acceptCommand_keeps_recordOk (s := s.withInputs rest) hs hc

/-! ### The access table and idempotence (10_state.md section 2, 20_memory.md R46) -/

/-- Settles O20: of the five things a command can do, a SETF out of range and an answer write no field register, and only
CLR and a SETF out of range with no record held write the record. -/
theorem onlyTheListedCommandsWrite : Obligations.OnlyTheListedCommandsWrite := by
  refine fun i s t h => ⟨fun hfields => ?_, fun hstatus => ?_⟩
  · obtain ⟨rfl, -⟩ | ⟨w, rfl, -⟩ | ⟨k, b, rfl, -⟩ | ⟨j, v, rfl, rfl⟩ | ⟨-, -, d, rfl⟩ := exec_cases h
    · exact .inl rfl
    · exact .inr (.inl ⟨w, rfl⟩)
    · exact .inr (.inr (.inl ⟨k, b, rfl⟩))
    · refine .inr (.inr (.inr ⟨j, v, rfl, ?_⟩))
      by_contra hv
      obtain ⟨hkept, -⟩ := s.raise_entered .rangeError j v
      rw [State.setField_of_not_accepts hv] at hfields
      exact hfields hkept
    · exact absurd ⟨rfl, rfl, rfl, rfl, rfl, rfl⟩ hfields
  · obtain ⟨rfl, -⟩ | ⟨hkept, -⟩ | ⟨j, v, rfl, hv, rfl⟩ := exec_record_cases h
    · exact .inl rfl
    · exact absurd hkept hstatus
    · obtain ⟨-, -, -, hheld⟩ := s.raise_entered .rangeError j v
      exact .inr ⟨j, v, rfl, hv, Bool.eq_false_of_not_eq_true fun herr => hstatus (hheld herr)⟩

/-- States whose byte lanes agree agree on the registers. -/
theorem State.sameFields_of_lanes {s t : State} (h : ∀ k, t.memRead k = s.memRead k) : SameFields s t :=
  State.sameFields_of_word_eq ((State.word_of_lanes h).trans s.word_eq_fromLeBytes.symm)

theorem State.memWrite_twice (s : State) (k : BitVec 2) (b : Byte) (d : Word) :
    SameFields (s.memWrite k b) (((s.memWrite k b).respond d).memWrite k b) := by
  refine State.sameFields_of_lanes fun j => ?_
  rw [State.memRead_memWrite, State.memRead_respond, State.memRead_memWrite]
  split <;> rfl

/-- A second SETF writes the same bits, or meets the record its first one wrote. -/
theorem State.setField_twice (s : State) (i : FieldIdx) (v : Word) :
    SameFields (s.setField i v) ((s.setField i v).setField i v) ∧
      SameStatus (s.setField i v) ((s.setField i v).setField i v) := by
  by_cases hv : Accepts i v.toInt
  · rw [State.setField_of_accepts hv, State.setField_of_accepts hv]
    cases i <;> exact ⟨⟨rfl, rfl, rfl, rfl, rfl, rfl⟩, ⟨rfl, rfl, rfl, rfl⟩⟩
  · rw [State.setField_of_not_accepts hv, State.setField_of_not_accepts hv]
    obtain ⟨hfields, -, -, hheld⟩ := (s.raise .rangeError i v).raise_entered .rangeError i v
    exact ⟨hfields, hheld (s.raise_err .rangeError i v)⟩

/-- Settles O21: each of the five things a command can do, done twice. -/
theorem repeatingACommandIsIdempotent : Obligations.RepeatingACommandIsIdempotent := by
  intro i s t u h hu
  obtain ⟨rfl, rfl⟩ | ⟨w, rfl, rfl⟩ | ⟨k, b, rfl, rfl⟩ | ⟨j, v, rfl, rfl⟩ | ⟨-, -, d, rfl⟩ := exec_cases hu
  · obtain rfl := Host.Outcome.next.inj h
    exact ⟨⟨rfl, rfl, rfl, rfl, rfl, rfl⟩, ⟨rfl, rfl, rfl, rfl⟩⟩
  · obtain rfl := Host.Outcome.next.inj h
    exact ⟨⟨rfl, rfl, rfl, rfl, rfl, rfl⟩, ⟨rfl, rfl, rfl, rfl⟩⟩
  · obtain rfl := Host.Outcome.next.inj h
    exact ⟨s.memWrite_twice k b 0, ⟨rfl, rfl, rfl, rfl⟩⟩
  · obtain rfl := Host.Outcome.next.inj ((exec_setf j v s).symm.trans h)
    exact s.setField_twice j v
  · exact ⟨⟨rfl, rfl, rfl, rfl, rfl, rfl⟩, ⟨rfl, rfl, rfl, rfl⟩⟩

end Sys2Proof.Machine
end

section
/-! SUPPORT. Each command as a function of the registers or of the record, for every state at once, and what follows: the
record never steers the datapath, no command reads the port, and a run over presented words is the left fold (20_memory.md
R48). -/

namespace Sys2Proof.Machine

/-! ### The form of each command, for every state at once -/

/-- The four commands that answer a part of the fault record (log 10). -/
abbrev ReadsRecord (i : Instr) : Prop := i = .rdstStatus ∨ i = .rdstEval ∨ i = .rdstEmin ∨ i = .rdstEmax

theorem exec_stw (s : State) : exec .stw s = .next (s.respond s.word) := rfl

theorem exec_getat (s : State) : exec .getat s = .next (s.respond s.animationPort) := rfl

theorem exec_getf_eq_unpack (i : FieldIdx) (s : State) :
    exec (.getf i) s = .next (s.respond (toPort (unpack s.word (fieldSpec i)))) := by
  rw [exec_getf, State.fieldPort_eq_toPort_unpack]

/-- GETAT decodes ATYPE's value (R118). -/
theorem State.animationPort_eq_toPort_val (s : State) : s.animationPort = toPort (atypeDecode (s.val .atype)) := rfl

theorem exec_getat_eq_unpack (s : State) : exec .getat s = .next (s.respond (toPort (atypeDecode (extAtype s.word)))) := by
  rw [exec_getat, State.animationPort_eq_toPort_val, State.val_eq_unpack, extAtype]

/-- i only answers, with data that is one function of the packed word in every state. -/
abbrev AnswersFromWord (i : Instr) : Prop := ∃ g : Word → Word, ∀ s, exec i s = .next (s.respond (g s.word))

/-- exec_cases with the answers named: only the four RDST answer from anything but the packed word. -/
theorem instr_cases (i : Instr) :
    i = .clr ∨ (∃ w, i = .ldw w) ∨ (∃ k b, i = .ldb k b) ∨ (∃ j v, i = .setf j v) ∨ ReadsRecord i ∨ AnswersFromWord i := by
  have hgetf : ∀ j, AnswersFromWord (.getf j) := fun j =>
    ⟨fun w => toPort (unpack w (fieldSpec j)), exec_getf_eq_unpack j⟩
  have hrdspec : ∀ j, AnswersFromWord (.rdspec j) := fun j => ⟨fun _ => _, exec_rdspec j⟩
  cases i
  case clr => exact .inl rfl
  case ldw w => exact .inr (.inl ⟨w, rfl⟩)
  case ldb k b => exact .inr (.inr (.inl ⟨k, b, rfl⟩))
  case setfExtra v => exact .inr (.inr (.inr (.inl ⟨.extra, v, rfl⟩)))
  case setfNframes v => exact .inr (.inr (.inr (.inl ⟨.nframes, v, rfl⟩)))
  case setfAtype v => exact .inr (.inr (.inr (.inl ⟨.atype, v, rfl⟩)))
  case setfOffx v => exact .inr (.inr (.inr (.inl ⟨.offx, v, rfl⟩)))
  case setfOffy v => exact .inr (.inr (.inr (.inl ⟨.offy, v, rfl⟩)))
  case setfAspeed v => exact .inr (.inr (.inr (.inl ⟨.aspeed, v, rfl⟩)))
  case rdstStatus => exact .inr (.inr (.inr (.inr (.inl (.inl rfl)))))
  case rdstEval => exact .inr (.inr (.inr (.inr (.inl (.inr (.inl rfl))))))
  case rdstEmin => exact .inr (.inr (.inr (.inr (.inl (.inr (.inr (.inl rfl)))))))
  case rdstEmax => exact .inr (.inr (.inr (.inr (.inl (.inr (.inr (.inr rfl)))))))
  all_goals refine .inr (.inr (.inr (.inr (.inr ?_))))
  case nop => exact ⟨fun _ => 0, exec_nop⟩
  case stw => exact ⟨id, exec_stw⟩
  case stb k => exact ⟨fun w => (byteOf w k).setWidth 32, exec_stb k⟩
  case getfExtra => exact hgetf .extra
  case getfNframes => exact hgetf .nframes
  case getfAtype => exact hgetf .atype
  case getfOffx => exact hgetf .offx
  case getfOffy => exact hgetf .offy
  case getfAspeed => exact hgetf .aspeed
  case getat => exact ⟨fun w => toPort (atypeDecode (extAtype w)), exec_getat_eq_unpack⟩
  case rdspecExtra => exact hrdspec .extra
  case rdspecNframes => exact hrdspec .nframes
  case rdspecAtype => exact hrdspec .atype
  case rdspecOffx => exact hrdspec .offx
  case rdspecOffy => exact hrdspec .offy
  case rdspecAspeed => exact hrdspec .aspeed

/-- An RDST only answers. -/
theorem ReadsRecord.exec_eq {i : Instr} (h : ReadsRecord i) (s : State) : ∃ d, exec i s = .next (s.respond d) := by
  obtain rfl | rfl | rfl | rfl := h
  · exact ⟨_, exec_rdstStatus s⟩
  · exact ⟨_, exec_rdstEval s⟩
  · exact ⟨_, exec_rdstEmin s⟩
  · exact ⟨_, exec_rdstEmax s⟩

/-! ### The record never steers the datapath (60_exceptions.md section 2) -/

theorem FaultEntered.word_eq {s t : State} {k : Cause} {f : FieldIdx} {v : Word} (h : FaultEntered s t k f v) :
    t.word = s.word := by
  obtain ⟨hfields, -⟩ := h
  exact State.word_eq_of_sameFields hfields

theorem FaultEntered.answered {s t : State} {k : Cause} {f : FieldIdx} {v : Word} (h : FaultEntered s t k f v) :
    Answered s t faultResponse := by
  obtain ⟨-, hans, -⟩ := h
  exact hans

theorem FaultEntered.err {s t : State} {k : Cause} {f : FieldIdx} {v : Word} (h : FaultEntered s t k f v) :
    t.err = true := by
  obtain ⟨-, -, hwrite, hheld⟩ := h
  cases herr : s.err
  · obtain ⟨herr', -⟩ := hwrite herr
    exact herr'
  · obtain ⟨herr', -⟩ := hheld herr
    exact herr'.trans herr

theorem State.setField_congr {s s' : State} (hw : s'.word = s.word) (i : FieldIdx) (v : Word) :
    (s'.setField i v).word = (s.setField i v).word ∧
      ∃ r, Answered s (s.setField i v) r ∧ Answered s' (s'.setField i v) r := by
  by_cases hv : Accepts i v.toInt
  · refine ⟨?_, okResponse 0, State.setField_answered hv s, State.setField_answered hv s'⟩
    simp only [State.setField_of_accepts hv, State.word_respond, State.writeField_word hv, hw]
  · rw [State.setField_of_not_accepts hv, State.setField_of_not_accepts hv]
    have hent := s.raise_entered .rangeError i v
    have hent' := s'.raise_entered .rangeError i v
    exact ⟨hent'.word_eq.trans (hw.trans hent.word_eq.symm), faultResponse, hent.answered, hent'.answered⟩

/-- The word a command leaves and, but for RDST, its response are functions of the word it finds. -/
theorem exec_congr {i : Instr} {s s' t t' : State} (hw : s'.word = s.word) (h : exec i s = .next t)
    (h' : exec i s' = .next t') :
    t'.word = t.word ∧ (¬ ReadsRecord i → ∃ r, Answered s t r ∧ Answered s' t' r) := by
  obtain rfl | ⟨w, rfl⟩ | ⟨k, b, rfl⟩ | ⟨j, v, rfl⟩ | hrdst | ⟨g, hg⟩ := instr_cases i
  · cases h
    cases h'
    exact ⟨rfl, fun _ => ⟨okResponse 0, ⟨rfl, rfl⟩, rfl, rfl⟩⟩
  · cases h
    cases h'
    exact ⟨rfl, fun _ => ⟨okResponse 0, ⟨rfl, rfl⟩, rfl, rfl⟩⟩
  · cases h
    cases h'
    refine ⟨?_, fun _ => ⟨okResponse 0, ⟨rfl, rfl⟩, rfl, rfl⟩⟩
    rw [State.word_respond, State.word_respond, State.word_memWrite, State.word_memWrite, hw]
  · rw [exec_setf] at h h'
    cases h
    cases h'
    obtain ⟨hword, hresp⟩ := State.setField_congr hw j v
    exact ⟨hword, fun _ => hresp⟩
  · obtain ⟨d, hd⟩ := hrdst.exec_eq s
    obtain ⟨d', hd'⟩ := hrdst.exec_eq s'
    cases hd.symm.trans h
    cases hd'.symm.trans h'
    exact ⟨hw, fun hi => absurd hrdst hi⟩
  · rw [hg] at h h'
    cases h
    cases h'
    refine ⟨hw, fun _ => ⟨okResponse (g s.word), ⟨rfl, rfl⟩, ?_, rfl⟩⟩
    rw [State.respond_responses, hw]

/-- Settles O19: an illegal word answers a fault and writes no register; of a command both the word it leaves and, but for
RDST, its response are functions of the word it finds. -/
theorem recordNeverSteersTheDatapath : Obligations.RecordNeverSteersTheDatapath := by
  intro c s s' t t' hfields h h'
  have hw := State.word_eq_of_sameFields hfields
  cases hc : decode c with
  | error e =>
    rw [acceptCommand_of_decode_error hc] at h h'
    cases h
    cases h'
    have hent := s.raiseIllegal_entered c
    have hent' := s'.raiseIllegal_entered c
    obtain ⟨hresp, -⟩ := hent.answered
    obtain ⟨hresp', -⟩ := hent'.answered
    exact ⟨State.sameFields_of_word_eq (hent'.word_eq.trans (hw.trans hent.word_eq.symm)), fun _ _ _ _ =>
      ⟨faultResponse, hresp, hresp'⟩⟩
  | ok i =>
    rw [acceptCommand_of_decode_ok hc] at h h'
    obtain ⟨hword, hanswer⟩ := exec_congr hw h h'
    refine ⟨State.sameFields_of_word_eq hword, fun hstatus heval hmin hmax => ?_⟩
    have hi : ¬ ReadsRecord i := by
      rintro (rfl | rfl | rfl | rfl)
      · exact hstatus rfl
      · exact heval rfl
      · exact hmin rfl
      · exact hmax rfl
    obtain ⟨r, ⟨hresp, -⟩, ⟨hresp', -⟩⟩ := hanswer hi
    exact ⟨r, hresp, hresp'⟩

/-! ### A run over presented words is the left fold (20_memory.md R48) -/

/-- No command reads the port (00_scope.md R7). -/
theorem exec_withInputs {i : Instr} {s t : State} (h : exec i s = .next t) (l : List HostInput) :
    exec i (s.withInputs l) = .next (t.withInputs l) := by
  obtain rfl | ⟨w, rfl⟩ | ⟨k, b, rfl⟩ | ⟨j, v, rfl⟩ | (rfl | rfl | rfl | rfl) | ⟨g, hg⟩ := instr_cases i
  case inr.inr.inr.inl =>
    rw [exec_setf] at h
    cases h
    rw [exec_setf, State.setField_withInputs]
  case inr.inr.inr.inr.inr =>
    rw [hg] at h
    cases h
    rw [hg]
    rfl
  all_goals
    cases h
    rfl

theorem acceptCommand_eq_commandEffect (c : CmdWord) (s : State) : acceptCommand c s = .next (commandEffect s c) := by
  obtain ⟨t, -, ht, -⟩ := acceptCommand_answers c s
  rw [commandEffect, ht]

theorem commandEffect_eq_of_accept {c : CmdWord} {s t : State} (h : acceptCommand c s = .next t) : commandEffect s c = t :=
  Host.Outcome.next.inj ((acceptCommand_eq_commandEffect c s).symm.trans h)

theorem commandEffect_withInputs (s : State) (l : List HostInput) (c : CmdWord) :
    commandEffect (s.withInputs l) c = (commandEffect s c).withInputs l := by
  have h := acceptCommand_eq_commandEffect c s
  apply commandEffect_eq_of_accept
  cases hc : decode c with
  | error e =>
    rw [acceptCommand_of_decode_error hc] at h ⊢
    rw [← Host.Outcome.next.inj h, State.raiseIllegal, State.raise_withInputs]
    rfl
  | ok i =>
    rw [acceptCommand_of_decode_ok hc] at h ⊢
    exact exec_withInputs h l

theorem foldl_commandEffect_withInputs (cs : List CmdWord) (s : State) (l : List HostInput) :
    cs.foldl commandEffect (s.withInputs l) = (cs.foldl commandEffect s).withInputs l := by
  induction cs generalizing s with
  | nil => rfl
  | cons c cs ih => rw [List.foldl_cons, commandEffect_withInputs, ih, List.foldl_cons]

theorem run_succ_of_next {s t : State} (h : step s = .next t) (n : Nat) :
    Host.Core.run Sys2Proof.core (n + 1) s = Host.Core.run Sys2Proof.core n t := by
  have hcore : Sys2Proof.core.step s = .next t := h
  simp only [Host.Core.run, hcore]

/-- Settles O11: induction over the words, each step taking one word and leaving the others on the port. -/
theorem runIsTheLeftFold : Obligations.RunIsTheLeftFold := by
  intro cs rest
  induction cs with
  | nil =>
    rintro s rfl
    rfl
  | cons c cs ih =>
    intro s hin
    have hstep : step s = .next ((commandEffect s c).withInputs (cs.map .command ++ rest)) := by
      rw [step_of_command hin, acceptCommand_eq_commandEffect, commandEffect_withInputs]
      rfl
    calc Host.Core.run Sys2Proof.core (cs.length + 1) s
        = Host.Core.run Sys2Proof.core cs.length ((commandEffect s c).withInputs (cs.map .command ++ rest)) :=
          run_succ_of_next hstep _
      _ = .next ((cs.foldl commandEffect ((commandEffect s c).withInputs (cs.map .command ++ rest))).withInputs rest) :=
          ih _ rfl
      _ = .next (((c :: cs).foldl commandEffect s).withInputs rest) := by
          rw [foldl_commandEffect_withInputs, State.withInputs_withInputs, List.foldl_cons]

/-! ### What the responses of a run say about ERR (70_reset_and_hazards.md R190) -/

/-- A word that is not CLR raises ERR exactly when it answers err = 1. -/
theorem commandEffect_err {c : CmdWord} (hc : decode c ≠ .ok .clr) (s : State) :
    ∃ r, (commandEffect s c).responses = s.responses ++ [r] ∧ (commandEffect s c).err = (s.err || r.err) := by
  obtain ⟨hclr, -⟩ | ⟨⟨herr, -⟩, d, hresp, -⟩ | ⟨-, hfault⟩ | ⟨i, v, -, -, hfault⟩ :=
    acceptCommand_record_cases (acceptCommand_eq_commandEffect c s)
  · exact absurd hclr hc
  · exact ⟨okResponse d, hresp, by rw [herr, Bool.or_false]⟩
  all_goals
    obtain ⟨hresp, -⟩ := hfault.answered
    exact ⟨faultResponse, hresp, by rw [hfault.err, Bool.or_true]⟩

/-- Without CLR, ERR after a run says whether it was 1 before or some response added has err = 1. -/
theorem foldl_commandEffect_err {cs : List CmdWord} (hcs : ∀ c ∈ cs, decode c ≠ .ok .clr) (s : State) :
    ∃ rs, (cs.foldl commandEffect s).responses = s.responses ++ rs ∧
      ((cs.foldl commandEffect s).err = true ↔ s.err = true ∨ ∃ r ∈ rs, r.err = true) := by
  induction cs generalizing s with
  | nil => exact ⟨[], (List.append_nil _).symm, by simp⟩
  | cons c cs ih =>
    obtain ⟨hc, hrest⟩ := List.forall_mem_cons.mp hcs
    obtain ⟨r, hresp, herr⟩ := commandEffect_err hc s
    obtain ⟨rs, hresps, herrs⟩ := ih hrest (commandEffect s c)
    refine ⟨r :: rs, ?_, ?_⟩
    · rw [List.foldl_cons, hresps, hresp, List.append_assoc, List.singleton_append]
    · rw [List.foldl_cons, herrs, herr, Bool.or_eq_true, List.exists_mem_cons_iff, or_assoc]

theorem commandEffect_clr {c : CmdWord} (hc : decode c = .ok .clr) (s : State) :
    commandEffect s c = s.clear.respond 0 :=
  commandEffect_eq_of_accept ((acceptCommand_of_decode_ok hc s).trans (exec_clr s))

/-- Over words that are not CLR, from a state without a recorded fault, the responses added decide whether the run went
wrong. -/
theorem wentWrong_iff {cs : List CmdWord} (hcs : ∀ c ∈ cs, decode c ≠ .ok .clr) {s : State} (hs : s.err = false) :
    WentWrong (cs.foldl commandEffect s) ↔
      ∃ r ∈ (cs.foldl commandEffect s).responses.drop s.responses.length, r.err = true := by
  obtain ⟨rs, hresp, herr⟩ := foldl_commandEffect_err hcs s
  rw [WentWrong, herr, hresp, List.drop_left, hs, or_iff_right Bool.false_ne_true]

/-- Settles O12: the second form is the first from the state CLR leaves, which has answered once and holds no fault. -/
theorem runWentWrongIffSomeErrResponse : Obligations.RunWentWrongIffSomeErrResponse := by
  refine ⟨fun cs s hs hcs => wentWrong_iff hcs hs, fun cs clr s hclr hcs => ?_⟩
  have h := wentWrong_iff hcs (s := s.clear.respond 0) rfl
  rw [State.respond_responses, State.clear_responses, List.length_append, List.length_singleton] at h
  rw [List.foldl_cons, commandEffect_clr hclr]
  exact h

end Sys2Proof.Machine
end

section
/-! SUPPORT. The ranges of the field values (40_field_functions.md R96, R97, R102, R104) and the settled statements on them,
GETAT and STW. -/

namespace Sys2Proof.Machine

/-! ### Every field value is in range (R102, 10_state.md R24) -/

theorem unpack_accepts (w : Word) (i : FieldIdx) : Accepts i (unpack w (fieldSpec i)) :=
  (inRange_iff_accepts i _).mp (unpack_inRange w (fieldSpec i))

/-- Settles O41: the extractor reads within its row's bounds, and a register's value is an extracted one. -/
theorem everyFieldValueIsInRange : Obligations.EveryFieldValueIsInRange :=
  ⟨fun w i => ⟨unpack_inRange w (fieldSpec i), unpack_accepts w i⟩, State.val_accepts⟩

/-! ### In-range records and their words (R104) -/

/-- Settles O43: equal words extract to equal values, and in-range values are what their word extracts to. -/
theorem packIsInjectiveInRange : Obligations.PackIsInjectiveInRange := by
  intro e n t x y s e' n' t' x' y' s' h h'
  obtain ⟨he, hn, ht, hx, hy, hs⟩ := (ext_pack_eq_iff e n t x y s).mpr h
  obtain ⟨he', hn', ht', hx', hy', hs'⟩ := (ext_pack_eq_iff e' n' t' x' y' s').mpr h'
  constructor
  · intro hw
    rw [hw] at he hn ht hx hy hs
    exact ⟨he.symm.trans he', hn.symm.trans hn', ht.symm.trans ht', hx.symm.trans hx', hy.symm.trans hy',
      hs.symm.trans hs'⟩
  · rintro ⟨rfl, rfl, rfl, rfl, rfl, rfl⟩
    rfl

/-! ### The range check as a bit test (R96) -/

/-- The bits of a word above the low b, as a quotient. -/
theorem highBits_eq_iff {b n : Nat} (h : b + n = 32) (d : Word) (q : BitVec n) :
    d.extractLsb' b n = q ↔ d.toNat / 2 ^ b = q.toNat := by
  have hlt : d.toNat / 2 ^ b < 2 ^ n := by
    rw [Nat.div_lt_iff_lt_mul (Nat.two_pow_pos b), ← pow_add, Nat.add_comm, h]
    exact d.isLt
  rw [← BitVec.toNat_inj, BitVec.extractLsb'_toNat, Nat.shiftRight_eq_div_pow, Nat.mod_eq_of_lt hlt]

/-- A port value in two's complement, at the word's width. -/
theorem toInt_eq_cond (d : Word) : d.toInt = if 2 * d.toNat < 2 ^ 32 then (d.toNat : Int) else (d.toNat : Int) - 2 ^ 32 :=
  BitVec.toInt_eq_toNat_cond d

/-- An unsigned row accepts the data whose bits above its size are 0. -/
theorem accepts_unsigned_iff {i : FieldIdx} {b n : Nat} (hb : b < 32) (h : b + n = 32) (hlow : acceptLow i = 0)
    (hhigh : acceptHigh i = 2 ^ b - 1) (d : Word) : Accepts i d.toInt ↔ d.extractLsb' b n = 0 := by
  have hpow : 2 ^ b ≤ 2 ^ 31 := Nat.pow_le_pow_right (by decide) (Nat.le_of_lt_succ hb)
  have hcast : (2 ^ b : Int) = ((2 ^ b : Nat) : Int) := by norm_cast
  have hlt : d.toNat < 2 ^ 32 := d.isLt
  have hzero : d.extractLsb' b n = 0 ↔ d.toNat < 2 ^ b :=
    (highBits_eq_iff h d 0).trans (Nat.div_eq_zero_iff_lt (Nat.two_pow_pos b))
  rw [Accepts, hlow, hhigh, hcast, hzero, toInt_eq_cond]
  split_ifs <;> omega

/-- A signed eight-bit row accepts the data whose bits from the sign bit up are all equal. -/
theorem accepts_signed_iff {i : FieldIdx} (hlow : acceptLow i = -128) (hhigh : acceptHigh i = 127) (d : Word) :
    Accepts i d.toInt ↔ d.extractLsb' 7 25 = 0 ∨ d.extractLsb' 7 25 = BitVec.allOnes 25 := by
  have hlt : d.toNat < 2 ^ 32 := d.isLt
  have hzero : (0 : BitVec 25).toNat = 0 := rfl
  have hones : (BitVec.allOnes 25).toNat = 2 ^ 25 - 1 := BitVec.toNat_allOnes
  rw [Accepts, hlow, hhigh, highBits_eq_iff rfl, highBits_eq_iff rfl, hzero, hones, toInt_eq_cond]
  split_ifs <;> omega

/-- Settles O44: the accept sets of the unsigned rows and of the two signed rows, each as a test of the data's high bits. -/
theorem rangeCheckIsTheBitTest : Obligations.RangeCheckIsTheBitTest := by
  intro d
  have hcheck : ∀ i, inRange (portValue d) (fieldSpec i) = true ↔ Accepts i d.toInt := fun i => inRange_iff_accepts i _
  simp only [hcheck]
  exact ⟨accepts_unsigned_iff (by decide) rfl rfl rfl d, accepts_unsigned_iff (by decide) rfl rfl rfl d,
    accepts_unsigned_iff (by decide) rfl rfl rfl d, accepts_signed_iff rfl rfl d, accepts_signed_iff rfl rfl d,
    accepts_unsigned_iff (by decide) rfl rfl rfl d⟩

/-! ### AnimationType (R97) and GETAT (41_unpack_ops.md R118) -/

theorem atypeDecode_of_member {n : Int} (h : 0 ≤ n ∧ n ≤ 3) : atypeDecode n = n := by
  obtain ⟨h0, h3⟩ := h
  interval_cases n <;> rfl

theorem atypeDecode_of_not_member {n : Int} (h : n < 0 ∨ 3 < n) : atypeDecode n = -1 := by
  have hout : n < 0 ∨ (Config.bfc32.animationMembers : Int) ≤ n := h
  rw [atypeDecode, animationOfOrdinal, if_pos hout]
  rfl

theorem atypeDecode_extAtype (w : Word) : atypeDecode (extAtype w) = extAtype w :=
  atypeDecode_of_member (unpack_accepts w .atype)

/-- Settles O45: the two sides of the closed set, and ATYPE's accept set is inside it. -/
theorem atypeDecodeMapsTheClosedSet : Obligations.AtypeDecodeMapsTheClosedSet := by
  refine ⟨fun n => ⟨atypeDecode_of_member, atypeDecode_of_not_member⟩, fun w => ⟨atypeDecode_extAtype w, ?_⟩⟩
  obtain ⟨h0, -⟩ : 0 ≤ extAtype w ∧ extAtype w ≤ 3 := unpack_accepts w .atype
  rw [atypeDecode_extAtype]
  omega

/-- A command answers one data word. -/
theorem ReadsAs.data_unique {i : Instr} {s : State} {d d' : Word} (h : ReadsAs i s d) (h' : ReadsAs i s d') : d = d' := by
  obtain ⟨t, ht, -, -, hresp, -⟩ := h
  obtain ⟨t', ht', -, -, hresp', -⟩ := h'
  obtain rfl := Host.Outcome.next.inj (ht.symm.trans ht')
  have hr : okResponse d = okResponse d' := List.singleton_inj.mp (List.append_cancel_left (hresp.symm.trans hresp'))
  exact congrArg Response.data hr

/-- F[2] zero-extended is GETAT's answer: its two bits hold members only. -/
theorem State.animationPort_eq_atype (s : State) : s.animationPort = s.atype.setWidth 32 := by
  have hval : s.val .atype = (s.atype.toNat : Int) := rfl
  rw [State.animationPort_eq_toPort_val, atypeDecode_of_member (s.val_accepts .atype), hval, toPort, BitVec.ofInt_natCast,
    BitVec.ofNat_toNat]

/-- Settles O26: GETAT only answers, the answer is F[2] zero-extended, and a two-bit value is not 0xFFFFFFFF. -/
theorem getatReturnsTheAnimationType : Obligations.GetatReturnsTheAnimationType := by
  refine ⟨rowDecodes_getat, fun s => ?_⟩
  have hreads : ReadsAs .getat s s.animationPort := readsAs_of_respond (exec_getat s)
  have hatype : ReadsAs .getat s (s.atype.setWidth 32) := s.animationPort_eq_atype ▸ hreads
  refine ⟨hreads, hatype, fun hinvalid => ?_⟩
  have hones := congrArg BitVec.toNat (hatype.data_unique hinvalid)
  rw [BitVec.toNat_setWidth_of_le (by decide)] at hones
  have hlt : s.atype.toNat < 4 := s.atype.isLt
  have hval : (0xFFFFFFFF : Word).toNat = 4294967295 := rfl
  omega

/-! ### STW (42_pack_ops.md R136) -/

theorem stw_readsAs {s : State} {d : Word} (h : s.word = d) : ReadsAs .stw s d := readsAs_of_respond (h ▸ exec_stw s)

/-- Settles O28: STW answers W, which is the concatenation of the registers, the merge of their values, and the word LDW
wrote. -/
theorem stwPacksTheFields : Obligations.StwPacksTheFields :=
  ⟨rowDecodes_stw, fun s => ⟨stw_readsAs s.word_eq_append, stw_readsAs s.word_eq_packOf_val⟩,
    fun w s => ⟨_, exec_ldw w s, stw_readsAs (s.word_setWord w)⟩⟩

end Sys2Proof.Machine
end

section
/-! SUPPORT. Which register bits stand in each byte lane (10_state.md section 2): slices of the packed word, before and after
a byte is written. -/

namespace Sys2Proof.Machine

/-! ### Slices of a word and of a word with one byte replaced -/

theorem slice_slice {a n b m : Nat} (h : b + m ≤ n) (w : Word) :
    (w.extractLsb' a n).extractLsb' b m = w.extractLsb' (a + b) m := by
  apply BitVec.eq_of_getLsbD_eq
  intro k hk
  simp [hk, show b + k < n by omega, Nat.add_assoc]

section
variable {off m n : Nat} {k : BitVec 2}

/-- A slice inside the byte written is a slice of the byte. -/
theorem slice_withByte_inside (hlow : 8 * k.toNat ≤ off) (hhigh : off + n ≤ 8 * k.toNat + 8) (w : Word) (b : Byte) :
    (withByte w k b).extractLsb' off n = b.extractLsb' (off - 8 * k.toNat) n := by
  have hk := k.isLt
  apply BitVec.eq_of_getLsbD_eq
  intro j hj
  rw [BitVec.getLsbD_extractLsb', BitVec.getLsbD_extractLsb', withByte_getLsbD w k b _ (by omega), if_pos (by omega),
    Nat.sub_add_comm hlow]

/-- A slice that meets no bit of the byte written stays. -/
theorem slice_withByte_outside (h : off + n ≤ 8 * k.toNat ∨ 8 * k.toNat + 8 ≤ off) (hend : off + n ≤ 32) (w : Word)
    (b : Byte) : (withByte w k b).extractLsb' off n = w.extractLsb' off n := by
  apply BitVec.eq_of_getLsbD_eq
  intro j hj
  rw [BitVec.getLsbD_extractLsb', BitVec.getLsbD_extractLsb', withByte_getLsbD w k b _ (by omega), if_neg (by omega)]

/-- The byte's upper end cuts the slice: its low n bits are the byte's, the m above stay. -/
theorem slice_withByte_low (hlow : 8 * k.toNat ≤ off) (hcut : off + n = 8 * k.toNat + 8) (hend : off + n + m ≤ 32)
    (w : Word) (b : Byte) :
    (withByte w k b).extractLsb' off (m + n) =
      (w.extractLsb' off (m + n)).extractLsb' n m ++ b.extractLsb' (off - 8 * k.toNat) n := by
  rw [← BitVec.extractLsb'_append_extractLsb'_eq_extractLsb' rfl, slice_withByte_inside hlow hcut.le,
    slice_withByte_outside (.inr hcut.ge) hend, slice_slice (Nat.add_comm n m).le]

/-- The byte's lower end cuts the slice: its low n bits stay, the m above are the byte's. -/
theorem slice_withByte_high (hcut : off + n = 8 * k.toNat) (hm : m ≤ 8) (w : Word) (b : Byte) :
    (withByte w k b).extractLsb' off (m + n) = b.extractLsb' 0 m ++ (w.extractLsb' off (m + n)).extractLsb' 0 n := by
  have hk := k.isLt
  rw [← BitVec.extractLsb'_append_extractLsb'_eq_extractLsb' rfl, slice_withByte_inside hcut.ge (by omega),
    slice_withByte_outside (.inl hcut.le) (by omega), slice_slice (by omega), hcut, Nat.sub_self, Nat.add_zero]

end

/-! ### The lane table (10_state.md section 2) -/

theorem State.memRead_eq_slice (s : State) (k : BitVec 2) : s.memRead k = s.word.extractLsb' (8 * k.toNat) 8 :=
  byteOf_eq_slice s.word k

/-- A lane whose bits lie in two pieces, one above the other. -/
theorem append_slices {a m n : Nat} {w : Word} {x : BitVec m} {y : BitVec n} (hx : x = w.extractLsb' (a + n) m)
    (hy : y = w.extractLsb' a n) : x ++ y = w.extractLsb' a (m + n) := by
  rw [hx, hy]
  exact BitVec.extractLsb'_append_extractLsb'_eq_extractLsb' rfl

theorem State.memRead_0 (s : State) : s.memRead 0 = s.nframes.extractLsb' 0 4 ++ s.extra := by
  rw [State.memRead_eq_slice, s.nframes_eq_slice, slice_slice (by decide)]
  exact (append_slices rfl s.extra_eq_slice).symm

theorem State.memRead_1 (s : State) :
    s.memRead 1 = s.offx.extractLsb' 0 4 ++ s.atype ++ s.nframes.extractLsb' 4 2 := by
  rw [State.memRead_eq_slice, s.nframes_eq_slice, s.offx_eq_slice, slice_slice (by decide), slice_slice (by decide)]
  exact (append_slices (a := 8) (n := 2) (append_slices (a := 10) (n := 2) rfl s.atype_eq_slice) rfl).symm

theorem State.memRead_2 (s : State) : s.memRead 2 = s.offy.extractLsb' 0 4 ++ s.offx.extractLsb' 4 4 := by
  rw [State.memRead_eq_slice, s.offx_eq_slice, s.offy_eq_slice, slice_slice (by decide), slice_slice (by decide)]
  exact (append_slices (a := 16) (n := 4) rfl rfl).symm

theorem State.memRead_3 (s : State) : s.memRead 3 = s.aspeed ++ s.offy.extractLsb' 4 4 := by
  rw [State.memRead_eq_slice, s.offy_eq_slice, slice_slice (by decide)]
  exact (append_slices (a := 24) (n := 4) s.aspeed_eq_slice rfl).symm

/-! ### The registers after a lane write

A register the byte does not meet stays, one inside it takes the byte's bits, and one that an end of the byte cuts does both. -/

section
variable (s : State) {k : BitVec 2} (b : Byte)

theorem fieldSpec_end_le (i : FieldIdx) : (fieldSpec i).bitOffset + (fieldSpec i).bitSize ≤ 32 := by
  cases i <;> decide

theorem State.memWrite_field_kept {i : FieldIdx}
    (h : (fieldSpec i).bitOffset + (fieldSpec i).bitSize ≤ 8 * k.toNat ∨ 8 * k.toNat + 8 ≤ (fieldSpec i).bitOffset) :
    (s.memWrite k b).field i = s.field i := by
  rw [State.field_eq_fieldSlice, State.field_eq_fieldSlice, State.word_memWrite, fieldSlice, fieldSlice,
    slice_withByte_outside h (fieldSpec_end_le i)]

theorem State.memWrite_0_extra : (s.memWrite 0 b).extra = b.extractLsb' 0 4 :=
  slice_withByte_inside (by decide) (by decide) s.word b

theorem State.memWrite_0_nframes : (s.memWrite 0 b).nframes = s.nframes.extractLsb' 4 2 ++ b.extractLsb' 4 4 := by
  rw [s.nframes_eq_slice]
  exact slice_withByte_low (m := 2) (n := 4) (by decide) (by decide) (by decide) s.word b

theorem State.memWrite_1_nframes : (s.memWrite 1 b).nframes = b.extractLsb' 0 2 ++ s.nframes.extractLsb' 0 4 := by
  rw [s.nframes_eq_slice]
  exact slice_withByte_high (m := 2) (n := 4) (by decide) (by decide) s.word b

theorem State.memWrite_1_atype : (s.memWrite 1 b).atype = b.extractLsb' 2 2 :=
  slice_withByte_inside (by decide) (by decide) s.word b

theorem State.memWrite_1_offx : (s.memWrite 1 b).offx = s.offx.extractLsb' 4 4 ++ b.extractLsb' 4 4 := by
  rw [s.offx_eq_slice]
  exact slice_withByte_low (m := 4) (n := 4) (by decide) (by decide) (by decide) s.word b

theorem State.memWrite_2_offx : (s.memWrite 2 b).offx = b.extractLsb' 0 4 ++ s.offx.extractLsb' 0 4 := by
  rw [s.offx_eq_slice]
  exact slice_withByte_high (m := 4) (n := 4) (by decide) (by decide) s.word b

theorem State.memWrite_2_offy : (s.memWrite 2 b).offy = s.offy.extractLsb' 4 4 ++ b.extractLsb' 4 4 := by
  rw [s.offy_eq_slice]
  exact slice_withByte_low (m := 4) (n := 4) (by decide) (by decide) (by decide) s.word b

theorem State.memWrite_3_offy : (s.memWrite 3 b).offy = b.extractLsb' 0 4 ++ s.offy.extractLsb' 0 4 := by
  rw [s.offy_eq_slice]
  exact slice_withByte_high (m := 4) (n := 4) (by decide) (by decide) s.word b

theorem State.memWrite_3_aspeed : (s.memWrite 3 b).aspeed = b.extractLsb' 4 4 :=
  slice_withByte_inside (by decide) (by decide) s.word b

end

/-- Settles O24: the lanes are slices of W, and so are the registers; each register meets the byte written in one of four
ways. -/
theorem lanesAliasTheRegisterBits : Obligations.LanesAliasTheRegisterBits := by
  refine ⟨fun s => ⟨s.memRead_0, s.memRead_1, s.memRead_2, s.memRead_3⟩, fun b s t => ?_⟩
  have hkept {k : BitVec 2} (i : FieldIdx) := s.memWrite_field_kept (k := k) (i := i) b
  refine ⟨?_, ?_, ?_, ?_⟩
  · intro h
    cases h
    exact ⟨s.memWrite_0_extra b, s.memWrite_0_nframes b, hkept .atype (by decide), hkept .offx (by decide),
      hkept .offy (by decide), hkept .aspeed (by decide)⟩
  · intro h
    cases h
    exact ⟨s.memWrite_1_nframes b, s.memWrite_1_atype b, s.memWrite_1_offx b, hkept .extra (by decide),
      hkept .offy (by decide), hkept .aspeed (by decide)⟩
  · intro h
    cases h
    exact ⟨s.memWrite_2_offx b, s.memWrite_2_offy b, hkept .extra (by decide), hkept .nframes (by decide),
      hkept .atype (by decide), hkept .aspeed (by decide)⟩
  · intro h
    cases h
    exact ⟨s.memWrite_3_offy b, s.memWrite_3_aspeed b, hkept .extra (by decide), hkept .nframes (by decide),
      hkept .atype (by decide), hkept .offx (by decide)⟩

end Sys2Proof.Machine
end

section
/-! SUPPORT. The pseudo-instructions (30_encoding.md R71): runs of answers, of register writes, and of commands after a fault,
and the settled statements on UNPACK, LDW4, STW4 and PACK6. -/

namespace Sys2Proof.Machine

theorem SameStatus.trans {s t u : State} (h : SameStatus s t) (h' : SameStatus t u) : SameStatus s u := by
  obtain ⟨herr, hcode, hfield, hval⟩ := h
  obtain ⟨herr', hcode', hfield', hval'⟩ := h'
  exact ⟨herr'.trans herr, hcode'.trans hcode, hfield'.trans hfield, hval'.trans hval⟩

/-- A run's second part starts in the state its first part leaves. -/
theorem runInstrs_append_of_next {is : List Instr} {s t : State} (h : runInstrs is s = .next t) (js : List Instr) :
    runInstrs (is ++ js) s = runInstrs js t := by
  induction is generalizing s with
  | nil =>
    cases h
    rfl
  | cons i is ih =>
    obtain ⟨u, hu⟩ := exec_total i s
    rw [runInstrs_cons_of_next hu] at h
    rw [List.cons_append, runInstrs_cons_of_next hu, ih h]

/-! ### UNPACK, LDW4 and STW4 -/

/-- Commands that answer from the packed word each answer from the one they all find. -/
theorem runInstrs_of_answers {α : Type} {f : α → Instr} {g : α → Word → Word}
    (hf : ∀ a s, exec (f a) s = .next (s.respond (g a s.word))) (as : List α) (s : State) :
    ∃ t, runInstrs (as.map f) s = .next t ∧ t.word = s.word ∧ SameStatus s t ∧
      t.responses = s.responses ++ as.map fun a => okResponse (g a s.word) := by
  induction as generalizing s with
  | nil => exact ⟨s, rfl, rfl, ⟨rfl, rfl, rfl, rfl⟩, (List.append_nil _).symm⟩
  | cons a as ih =>
    obtain ⟨t, ht, hword, hstatus, hresp⟩ := ih (s.respond (g a s.word))
    exact ⟨t, (runInstrs_cons_of_next (hf a s) _).trans ht, hword, hstatus, hresp.trans (List.append_assoc _ _ _)⟩

/-- The six fields in ascending index (30_encoding.md R63). -/
def fieldOrder : List FieldIdx := [.extra, .nframes, .atype, .offx, .offy, .aspeed]

/-- The byte lanes of a word of known bytes. -/
theorem byteOf_fromLeBytes (b0 b1 b2 b3 : Byte) :
    byteOf (fromLeBytes b0 b1 b2 b3) 0 = b0 ∧ byteOf (fromLeBytes b0 b1 b2 b3) 1 = b1 ∧
      byteOf (fromLeBytes b0 b1 b2 b3) 2 = b2 ∧ byteOf (fromLeBytes b0 b1 b2 b3) 3 = b3 := by
  have h := leBytes_fromLeBytes b0 b1 b2 b3
  rw [leBytes_eq_byteOf] at h
  simpa using h

/-- LDW4 is the four LDBs of its stream's word. -/
theorem expand_ldw4 (b0 b1 b2 b3 : Byte) :
    expand (.ldw4 b0 b1 b2 b3) = [0, 1, 2, 3].map fun k => .ldb k (byteOf (fromLeBytes b0 b1 b2 b3) k) := by
  obtain ⟨h0, h1, h2, h3⟩ := byteOf_fromLeBytes b0 b1 b2 b3
  simp only [List.map_cons, List.map_nil, h0, h1, h2, h3]
  rfl

/-- Settles O48: UNPACK and STW4 are runs of answers from one word, and LDW4 writes the four lanes of its stream's word. -/
theorem streamPseudoInstructionsTransferTheWord : Obligations.StreamPseudoInstructionsTransferTheWord := by
  refine ⟨fun w s => ?_, fun b0 b1 b2 b3 s => ?_, fun s => ?_⟩
  · obtain ⟨t, ht, hword, hstatus, hresp⟩ :=
      runInstrs_of_answers (g := fun i w => toPort (unpack w (fieldSpec i))) exec_getf_eq_unpack fieldOrder
        ((s.setWord w).respond 0)
    rw [State.word_respond, State.word_setWord] at hword hresp
    refine ⟨t, (runInstrs_cons_of_next (exec_ldw w s) _).trans ht, hword, hstatus, ?_⟩
    rw [hresp, State.respond_responses, State.setWord_responses, List.append_assoc]
    rfl
  · obtain ⟨t, ht, hlanes, hstatus, hresp, -⟩ := runInstrs_ldbs (byteOf (fromLeBytes b0 b1 b2 b3)) [0, 1, 2, 3] s
    have hall : ∀ j : BitVec 2, j ∈ [(0 : BitVec 2), 1, 2, 3] := by decide
    refine ⟨t, (expand_ldw4 b0 b1 b2 b3).symm ▸ ht, ?_, hstatus, hresp⟩
    obtain ⟨h0, h1, h2, h3⟩ := byteOf_fromLeBytes b0 b1 b2 b3
    rw [State.word_of_lanes fun j => (hlanes j).trans (if_pos (hall j)), h0, h1, h2, h3]
  · obtain ⟨t, ht, hword, hstatus, hresp⟩ :=
      runInstrs_of_answers (g := fun k w => (byteOf w k).setWidth 32) exec_stb [0, 1, 2, 3] s
    exact ⟨t, ht, State.sameFields_of_word_eq hword, hstatus, hresp⟩

/-! ### PACK6 with six in-range values -/

theorem exec_asmSetf (i : FieldIdx) (v : Int) (s : State) :
    exec (asmSetf i v) s = .next (s.setField i (BitVec.ofInt 32 v)) := exec_setf i _ s

/-- An integer of 32 bits survives its assembly. -/
theorem toInt_ofInt_of_bounds {v : Int} (h : -2147483648 ≤ v ∧ v ≤ 2147483647) : (BitVec.ofInt 32 v).toInt = v := by
  obtain ⟨hmin, hmax⟩ := h
  exact BitVec.toInt_ofInt_eq_self (by decide) hmin (Int.lt_add_one_of_le hmax)

theorem Accepts.toInt_ofInt {i : FieldIdx} {v : Int} (h : Accepts i v) : (BitVec.ofInt 32 v).toInt = v := by
  have hlow : ∀ j, -2147483648 ≤ acceptLow j := by intro j; cases j <;> decide
  have hhigh : ∀ j, acceptHigh j ≤ 2147483647 := by intro j; cases j <;> decide
  obtain ⟨hmin, hmax⟩ := h
  exact toInt_ofInt_of_bounds ⟨(hlow i).trans hmin, hmax.trans (hhigh i)⟩

/-- One SETF of an in-range value stores it and keeps the record. -/
theorem exec_asmSetf_of_accepts {i : FieldIdx} {v : Int} (h : Accepts i v) (s : State) :
    ∃ t, exec (asmSetf i v) s = .next t ∧ t.val = Function.update s.val i v ∧ SameStatus s t ∧
      t.responses = s.responses ++ [okResponse 0] := by
  have hv : Accepts i (BitVec.ofInt 32 v).toInt := h.toInt_ofInt.symm ▸ h
  obtain ⟨-, hstatus, -, hresp⟩ := State.writeField_frame s i (BitVec.ofInt 32 v)
  refine ⟨_, (exec_asmSetf i v s).trans (congrArg _ (State.setField_of_accepts hv s)), ?_, hstatus, ?_⟩
  · exact (State.writeField_val hv s).trans (by rw [h.toInt_ofInt])
  · rw [State.respond_responses, hresp]

/-- SETFs of in-range values store them in the fields they name and keep the record. -/
theorem runInstrs_setfs {v : FieldIdx → Int} {is : List FieldIdx} (h : ∀ i ∈ is, Accepts i (v i)) (s : State) :
    ∃ t, runInstrs (is.map fun i => asmSetf i (v i)) s = .next t ∧
      (∀ j, t.val j = if j ∈ is then v j else s.val j) ∧ SameStatus s t ∧
      t.responses = s.responses ++ List.replicate is.length (okResponse 0) := by
  induction is generalizing s with
  | nil => exact ⟨s, rfl, fun j => rfl, ⟨rfl, rfl, rfl, rfl⟩, (List.append_nil _).symm⟩
  | cons i is ih =>
    obtain ⟨hi, his⟩ := List.forall_mem_cons.mp h
    obtain ⟨u, hu, hval, hstatus, hresp⟩ := exec_asmSetf_of_accepts hi s
    obtain ⟨t, ht, hvals, hstatus', hresp'⟩ := ih his u
    refine ⟨t, (runInstrs_cons_of_next hu _).trans ht, fun j => ?_, hstatus.trans hstatus', ?_⟩
    · rw [hvals, hval]
      by_cases hj : j = i
      · subst hj
        simp
      · simp [hj]
    · rw [hresp', hresp, List.append_assoc]
      rfl

/-- PACK6 is the six SETFs in ascending index, then STW. -/
theorem expand_pack6 (v : FieldIdx → Int) :
    expand (.pack6 (v .extra) (v .nframes) (v .atype) (v .offx) (v .offy) (v .aspeed)) =
      (fieldOrder.map fun i => asmSetf i (v i)) ++ [.stw] := rfl

theorem runInstrs_pack6_of_accepts {v : FieldIdx → Int} (h : ∀ i, Accepts i (v i)) (s : State) :
    ∃ t, runInstrs ((fieldOrder.map fun i => asmSetf i (v i)) ++ [.stw]) s = .next t ∧ (∀ i, t.val i = v i) ∧
      SameStatus s t ∧
      t.responses = s.responses ++ List.replicate 6 (okResponse 0) ++ [okResponse (packOf v)] := by
  have hall : ∀ i, i ∈ fieldOrder := by intro i; cases i <;> decide
  obtain ⟨t, ht, hvals, hstatus, hresp⟩ := runInstrs_setfs (fun i _ => h i) s (is := fieldOrder)
  have hval : ∀ i, t.val i = v i := fun i => (hvals i).trans (if_pos (hall i))
  have hword : t.word = packOf v := by rw [State.word_eq_packOf_val, funext hval]
  refine ⟨t.respond t.word, ?_, hval, hstatus, ?_⟩
  · rw [runInstrs_append_of_next ht]
    exact runInstrs_cons_of_next (exec_stw t) []
  · rw [State.respond_responses, hresp, hword]
    rfl

/-! ### PACK6 with a value out of range: the lowest failing field is recorded -/

/-- Once a fault is recorded a run without CLR keeps the record and only adds responses. -/
theorem runInstrs_of_err {is : List Instr} (his : ∀ i ∈ is, i ≠ .clr) {s : State} (hs : s.err = true) :
    ∃ t, runInstrs is s = .next t ∧ SameStatus s t ∧ s.responses <+: t.responses := by
  induction is generalizing s with
  | nil => exact ⟨s, rfl, ⟨rfl, rfl, rfl, rfl⟩, ⟨[], List.append_nil _⟩⟩
  | cons i is ih =>
    obtain ⟨hi, hrest⟩ := List.forall_mem_cons.mp his
    obtain ⟨u, hu⟩ := exec_total i s
    have hstep : SameStatus s u ∧ s.responses <+: u.responses := by
      obtain ⟨hclr, -⟩ | ⟨hsame, d, hresp, -⟩ | ⟨j, v, -, -, rfl⟩ := exec_record_cases hu
      · exact absurd hclr hi
      · exact ⟨hsame, ⟨_, hresp.symm⟩⟩
      · obtain ⟨-, ⟨hresp, -⟩, -, hheld⟩ := s.raise_entered .rangeError j v
        exact ⟨hheld hs, ⟨_, hresp.symm⟩⟩
    obtain ⟨hsame, hgrown⟩ := hstep
    obtain ⟨herr, -⟩ := id hsame
    obtain ⟨t, ht, hsame', hgrown'⟩ := ih hrest (herr.trans hs)
    exact ⟨t, (runInstrs_cons_of_next hu _).trans ht, hsame.trans hsame', hgrown.trans hgrown'⟩

theorem asmSetf_ne_clr (i : FieldIdx) (v : Int) : asmSetf i v ≠ .clr := by
  cases i <;> exact nofun

/-- The fields below i come before it in the order of PACK6. -/
theorem fieldOrder_split (i : FieldIdx) :
    ∃ pre post, fieldOrder = pre ++ i :: post ∧ ∀ j ∈ pre, (fieldIndex j).toNat < (fieldIndex i).toNat := by
  cases i
  case extra => exact ⟨[], _, rfl, by decide⟩
  case nframes => exact ⟨[.extra], _, rfl, by decide⟩
  case atype => exact ⟨[.extra, .nframes], _, rfl, by decide⟩
  case offx => exact ⟨[.extra, .nframes, .atype], _, rfl, by decide⟩
  case offy => exact ⟨[.extra, .nframes, .atype, .offx], _, rfl, by decide⟩
  case aspeed => exact ⟨[.extra, .nframes, .atype, .offx, .offy], _, rfl, by decide⟩

/-- SETFs of in-range values, then one out of range, then commands other than CLR: the record is that one's RangeError. -/
theorem runInstrs_of_first_failure {v : FieldIdx → Int} {pre : List FieldIdx} {i : FieldIdx} {is : List Instr}
    (hpre : ∀ j ∈ pre, Accepts j (v j)) (hi : ¬ Accepts i (v i)) (hbounds : -2147483648 ≤ v i ∧ v i ≤ 2147483647)
    (his : ∀ j ∈ is, j ≠ .clr) {s : State} (hs : s.err = false) :
    ∃ t, runInstrs ((pre.map fun j => asmSetf j (v j)) ++ asmSetf i (v i) :: is) s = .next t ∧
      t.err = true ∧ t.ecode = .rangeError ∧ t.efield = i ∧ t.eval.toInt = v i ∧
      ∃ r ∈ t.responses.drop s.responses.length, r.err = true := by
  obtain ⟨u, hu, -, ⟨herr, -⟩, hresp⟩ := runInstrs_setfs hpre s
  have hword := toInt_ofInt_of_bounds hbounds
  have hfault : exec (asmSetf i (v i)) u = .next (u.raise .rangeError i (BitVec.ofInt 32 (v i))) := by
    rw [exec_asmSetf, State.setField_of_not_accepts (hword.symm ▸ hi)]
  obtain ⟨-, ⟨hresp', -⟩, hwrite, -⟩ := u.raise_entered .rangeError i (BitVec.ofInt 32 (v i))
  obtain ⟨herr', hcode, hfield, hval⟩ := hwrite (herr.trans hs)
  obtain ⟨t, ht, ⟨hterr, htcode, htfield, htval⟩, more, hmore⟩ := runInstrs_of_err his herr'
  refine ⟨t, ?_, hterr.trans herr', htcode.trans hcode, htfield.trans hfield, ?_, faultResponse, ?_, rfl⟩
  · rw [runInstrs_append_of_next hu, runInstrs_cons_of_next hfault, ht]
  · rw [htval, hval, hword]
  · rw [← hmore, hresp', hresp, List.append_assoc, List.append_assoc, List.drop_left]
    simp

/-- Settles O49: six accepted SETFs leave the values and STW answers their merge; otherwise the fields below the lowest failing
one are accepted, that one's fault is recorded, and the rest, no CLR among them, keep it. -/
theorem pack6PacksOrRecordsTheLowestField : Obligations.Pack6PacksOrRecordsTheLowestField := by
  refine ⟨fun v s h => runInstrs_pack6_of_accepts h s, fun v s i hs hbounds hlow hi => ?_⟩
  obtain ⟨pre, post, hsplit, hpre⟩ := fieldOrder_split i
  have hpost : ∀ j ∈ (post.map fun j => asmSetf j (v j)) ++ [Instr.stw], j ≠ .clr := by
    intro j hj
    obtain hj | hj := List.mem_append.mp hj
    · obtain ⟨f, -, rfl⟩ := List.mem_map.mp hj
      exact asmSetf_ne_clr f (v f)
    · obtain rfl := List.mem_singleton.mp hj
      exact nofun
  have h := runInstrs_of_first_failure (fun j hj => hlow j (hpre j hj)) hi (hbounds i) hpost hs
  rwa [expand_pack6, hsplit, List.map_append, List.map_cons, List.append_assoc, List.cons_append]

end Sys2Proof.Machine
end
